-- ==== Sys2Proof/Word.lean ====
section
/-! DEFINITION. The word types of the block codec: bytes, symbol identifiers, the accumulator and its
count, and the words of the four formats of spec/30_encoding.md R70 that an instruction can have. -/

namespace Sys2Proof

/-- A byte of a byte sequence (R10, R50: "A byte is 8 bits"). -/
abbrev Byte := BitVec 8

/-- Format `SID3`: a symbol identifier on a port or in `DOUT` (R70, R76). -/
abbrev Sid := BitVec 3

/-- The 24-bit block accumulator `ACC[23:0]` (R21). -/
abbrev Acc := BitVec 24

/-- The count register `CNT[4:0]` (R22). -/
abbrev Cnt := BitVec 5

/-- A `SYM3` vector `v[2:0]`: `v[k]` is the k-th bit of the code in stream order (R9 (c), R71). -/
abbrev Sym3 := BitVec 3

/-- One word of one of the four formats of the opcode table (R70). The format is part of the word:
an `ECMD5` word comes on the encoder's command channel, a `DCMD10` word on the decoder's (R207),
and `SYM3` and `FILL1` are data codes of the bit stream. -/
inductive CodeWord where
  /-- an encoder command word `ecmd[4:0]` (R77) -/
  | ecmd (w : BitVec 5)
  /-- a decoder command word `dcmd[9:0]` (R78) -/
  | dcmd (w : BitVec 10)
  /-- a 3-bit group of the bit stream (R71) -/
  | sym3 (v : Sym3)
  /-- the one bit of a filler (R74) -/
  | fill1 (f : BitVec 1)
deriving DecidableEq, Repr, Inhabited

end Sys2Proof
end

