-- ==== Sys2Proof/Config.lean ====
section
/-! DEFINITION. The constants the source fixes (00_scope.md R6) and the parameters an instance of the
hardware is built with (R7), as plain data. Where the source gives a parameter no value and R8
forbids to assume one, the instance right after power-on takes a free value: an opaque constant
with no body (log entries 4, 5 and 6). -/

namespace Sys2Proof

/-- `BLOCK_BITS`: the flush threshold and the block size in bits (R6). -/
abbrev blockBits : Nat := 24

/-- `BLOCK_BYTES`: the bytes produced by one flush (R6). -/
abbrev blockBytes : Nat := 3

/-- `FILL_COUNT`: the filler appends of one `EFIN`, a constant and not inferred arithmetic
(R6, R199). -/
abbrev fillCount : Nat := 24

/-- `SYM_BITS`: the code width of every alphabet symbol (R6). -/
abbrev symBits : Nat := 3

/-- `FILLER_BITS`: the code width of the filler (R6). -/
abbrev fillerBits : Nat := 1

/-- `N_SYM`: the alphabet size (R6). -/
abbrev nSym : Nat := 7

/-- `N_INK`: the number of ink symbols (R6). -/
abbrev nInk : Nat := 5

/-- `SYMS_PER_BLOCK` (R6). -/
abbrev symsPerBlock : Nat := 8

/-- The parameter `CODE` as its seven entries, each the vector of the code string (R7, R72). -/
structure CodeTable where
  /-- the code of the darkest ink, sid 0 -/
  ink0 : Sym3
  ink1 : Sym3
  ink2 : Sym3
  ink3 : Sym3
  /-- the code of the lightest ink, sid 4 -/
  ink4 : Sym3
  lineEnd : Sym3
  streamEnd : Sym3
deriving DecidableEq, Repr, Inhabited

/-- The parameter `W_MIN`, a function of the byte count with no constraint (R7, 93 U4), as plain
data: the function is named here and `Config.wMin` is the function (log entry 6). -/
inductive PadWidth where
  /-- A function that is written out: `overrides` gives the width for the first lengths, and from
  there on it is the polynomial in the length with the coefficients `poly`, lowest first. `[n]` is the
  source's constant function, `[0, 8]` the proportional width (R143, 90_conflicts.md C5). -/
  | table (overrides poly : List Nat)
  /-- Any function at all: `Config.freePadWidth k`, of which nothing is known. -/
  | free (k : Nat)
deriving DecidableEq, Repr, Inhabited

/-- The parameters of R7 that the two units read. They are fixed when the hardware is built and no
command writes them (R28). A capacity of `none` is unbounded (R63). -/
structure Config where
  /-- `CODE` -/
  code : CodeTable
  /-- `FILLER_BIT` -/
  fillerBit : Bool
  /-- `W_MIN` -/
  padWidth : PadWidth
  /-- `CAP_OUT`, in bytes -/
  capOut : Option Nat
  /-- `CAP_IN`, in bytes -/
  capIn : Option Nat
deriving DecidableEq, Repr, Inhabited

/-- The characters of the text form, read by no command: the five `INK_CHAR` values and `NL_CHAR`
(R7, R8, R154). -/
structure TextChars where
  ink0 : Char
  ink1 : Char
  ink2 : Char
  ink3 : Char
  ink4 : Char
  newline : Char
deriving DecidableEq, Repr

/-- FREE VALUE: the choices that fix the code table of the instance `State.reset` stands for, one
number for each symbol still to be given a pattern (`CodeTable.ofChoices`). R8 and R72 forbid to
assume a table (log entry 4). -/
opaque Config.builtCodeChoice : Nat → Nat

/-- FREE VALUE: the filler bit of the instance `State.reset` stands for. R7 gives no default
(log entry 5). -/
opaque Config.builtFillerBit : Bool

/-- FREE VALUE: the functions of the byte count that `PadWidth.free` stands for. Nothing is known of
any of them (log entry 6). -/
opaque Config.freePadWidth : Nat → Nat → Nat

end Sys2Proof
end

