-- ==== Sys2Proof/Syntax.lean ====
section
/-! DEFINITION. The alphabet (00_scope.md R16, 30_encoding.md R76) and the instructions: one
constructor of `Instr` for every row of spec/opcode_table.json. -/

namespace Sys2Proof

/-- The alphabet: five ink symbols "from darkest to lightest" and two control symbols (R16). The
filler is not part of it. -/
inductive Sym where
  | ink0
  | ink1
  | ink2
  | ink3
  | ink4
  | lineEnd
  | streamEnd
deriving DecidableEq, Repr, Inhabited

/-- The instructions: the six commands of the two command channels, and the nine data codes of the
bit stream, whose meanings are the actions the spec gives a scanned group (R147) and a filler
append (R123); see log entry 10. -/
inductive Instr where
  /-- `ESTART` (R100) -/
  | estart
  /-- `EPUSH sid` (R101) -/
  | epush (sid : Sid)
  /-- `EFIN` (R105) -/
  | efin
  /-- `DSTART` (R140) -/
  | dstart
  /-- `DBYTE b` (R141) -/
  | dbyte (b : Byte)
  /-- `DRUN` (R142) -/
  | drun
  /-- `SYM_Ink0`: a group that is the code of `Ink0` (R72, R147) -/
  | symInk0
  /-- `SYM_Ink1` -/
  | symInk1
  /-- `SYM_Ink2` -/
  | symInk2
  /-- `SYM_Ink3` -/
  | symInk3
  /-- `SYM_Ink4` -/
  | symInk4
  /-- `SYM_LineEnd` -/
  | symLineEnd
  /-- `SYM_StreamEnd` -/
  | symStreamEnd
  /-- `SYM_UNUSED`: the pattern `"110"`, no symbol's code (R81, R150) -/
  | symUnused
  /-- `FILLER`: one filler bit, appended by `EFIN` only (R74, R123) -/
  | filler
deriving DecidableEq, Repr, Inhabited

end Sys2Proof
end

