-- ==== Sys2Proof/WellFormed.lean ====
section
/-! DEFINITION. What the spec requires of a code table, of the parameters, of the characters of the
text form, and of an instruction under an instance's parameters. -/

namespace Sys2Proof

/-- The seven codes in sid order. -/
def CodeTable.entries (t : CodeTable) : List Sym3 :=
  [t.ink0, t.ink1, t.ink2, t.ink3, t.ink4, t.lineEnd, t.streamEnd]

/-- The pattern `"110"`: 1, 1, 0 in stream order, the vector value 3 (R9 (c), R81). -/
abbrev unusedPattern : Sym3 := 3#3

/-- R7: `CODE` is injective and `"110"` is not in its range. -/
def CodeTable.wf (t : CodeTable) : Bool :=
  decide t.entries.Nodup && !t.entries.contains unusedPattern

/-- R7: `CAP_OUT` is a multiple of 3 when finite. -/
def capOutWf : Option Nat → Bool
  | none => true
  | some c => c % blockBytes == 0

/-- The constraints of R7 on the parameters the units read. `FILLER_BIT`, `W_MIN` and `CAP_IN` have
none. -/
def Config.wf (c : Config) : Bool :=
  c.code.wf && capOutWf c.capOut

/-- R7: the ink characters are distinct and none equals `NL_CHAR`. What makes a character
printable is not in the spec, so nothing is required of it. -/
def TextChars.wf (t : TextChars) : Bool :=
  decide [t.ink0, t.ink1, t.ink2, t.ink3, t.ink4, t.newline].Nodup

/-- An instruction is well formed under an instance's parameters. The operand types already hold
exactly the operand fields of R77 and R78, every value of which is legal (`EPUSH 7` is not
reserved, R83), so the commands and the filler always are; a data code of the alphabet is one when
`CODE` is a legal table (R72). -/
def Instr.wf (c : Config) : Instr → Bool
  | .estart => true
  | .epush _ => true
  | .efin => true
  | .dstart => true
  | .dbyte _ => true
  | .drun => true
  | .symInk0 => c.code.wf
  | .symInk1 => c.code.wf
  | .symInk2 => c.code.wf
  | .symInk3 => c.code.wf
  | .symInk4 => c.code.wf
  | .symLineEnd => c.code.wf
  | .symStreamEnd => c.code.wf
  | .symUnused => c.code.wf
  | .filler => true

end Sys2Proof
end

