-- ==== Sys2Proof/Decode.lean ====
section
/-! DEFINITION. The code tables `CODE` and `INV` (30_encoding.md R72, R73), the symbol identifiers (R76),
the decoder of the four word formats and, after it, the encoder of the instructions. -/

namespace Sys2Proof

/-! ### The symbol identifiers (R76) -/

/-- The symbols in sid order. -/
def allSyms : List Sym :=
  [.ink0, .ink1, .ink2, .ink3, .ink4, .lineEnd, .streamEnd]

/-- The sid of a symbol (R76). -/
def sidOf : Sym → Sid
  | .ink0 => 0
  | .ink1 => 1
  | .ink2 => 2
  | .ink3 => 3
  | .ink4 => 4
  | .lineEnd => 5
  | .streamEnd => 6

/-- The symbol a sid names: 7 is assigned to no symbol (R76). -/
def symOfSid (sid : Sid) : Option Sym :=
  if sid = 0 then some .ink0
  else if sid = 1 then some .ink1
  else if sid = 2 then some .ink2
  else if sid = 3 then some .ink3
  else if sid = 4 then some .ink4
  else if sid = 5 then some .lineEnd
  else if sid = 6 then some .streamEnd
  else none

/-! ### The code tables (R72, R73) -/

/-- `CODE`, the code of each symbol under an instance's table. -/
def CodeTable.codeOf (t : CodeTable) : Sym → Sym3
  | .ink0 => t.ink0
  | .ink1 => t.ink1
  | .ink2 => t.ink2
  | .ink3 => t.ink3
  | .ink4 => t.ink4
  | .lineEnd => t.lineEnd
  | .streamEnd => t.streamEnd

/-- `INV`, the inverse of `CODE`: the symbol whose code the pattern is, or none. A pattern that is no
symbol's code never yields a symbol (R73). -/
def CodeTable.inv (t : CodeTable) (p : Sym3) : Option Sym :=
  if p = t.ink0 then some .ink0
  else if p = t.ink1 then some .ink1
  else if p = t.ink2 then some .ink2
  else if p = t.ink3 then some .ink3
  else if p = t.ink4 then some .ink4
  else if p = t.lineEnd then some .lineEnd
  else if p = t.streamEnd then some .streamEnd
  else none

/-- The default `CODE` of R72: the strings `"000"`, `"001"`, `"010"`, `"011"`, `"100"`, `"101"` and
`"111"` as vectors. "a model must take the table as a parameter and must not build it in": the
reading of the opcode table's `SYM3` rows names it and no other definition does (log entry 11). -/
def CodeTable.default : CodeTable where
  ink0 := 0b000
  ink1 := 0b100
  ink2 := 0b010
  ink3 := 0b110
  ink4 := 0b001
  lineEnd := 0b101
  streamEnd := 0b111

/-- The seven patterns that are codes: "its range is exactly the other seven patterns" (R7). -/
def usedPatterns : List Sym3 := [0, 4, 2, 6, 1, 5, 7]

/-- An arrangement of a list: with `n` elements left, the one that choice `g n` picks comes first. -/
def arrangement (g : Nat → Nat) : Nat → List Sym3 → List Sym3
  | 0, _ => []
  | n + 1, l => l.getD (g n % (n + 1)) 0 :: arrangement g n (l.eraseIdx (g n % (n + 1)))

/-- The code table that the choices fix. Every one is legal and every legal table is one
(`Laws.ofChoices_wf`, `Laws.legal_table_is_ofChoices`). -/
def CodeTable.ofChoices (g : Nat → Nat) : CodeTable :=
  let a := arrangement g nSym usedPatterns
  { ink0 := a.getD 0 0, ink1 := a.getD 1 0, ink2 := a.getD 2 0, ink3 := a.getD 3 0,
    ink4 := a.getD 4 0, lineEnd := a.getD 5 0, streamEnd := a.getD 6 0 }

/-- The instance `State.reset` stands for: a free value for `CODE`, `FILLER_BIT` and `W_MIN`, none of
whose values a model may assume (R8, R72), and the unbounded capacities of R7's table; log entries
4, 5 and 6. -/
def Config.reference : Config where
  code := CodeTable.ofChoices Config.builtCodeChoice
  fillerBit := Config.builtFillerBit
  padWidth := .free 0
  capOut := none
  capIn := none

/-! ### Decoding -/

/-- Why a word is no instruction. -/
inductive DecodeError where
  /-- a reserved `ECMD5` word (R77, R82) -/
  | reservedEcmd (w : BitVec 5)
  /-- a reserved `DCMD10` word (R78, R82) -/
  | reservedDcmd (w : BitVec 10)
  /-- a `FILL1` bit that is not this instance's `FILLER_BIT` (R74) -/
  | notTheFiller (f : BitVec 1)
deriving DecidableEq, Repr

/-- The encoder command word `ecmd[4:0]`: `ecmd[4:3]` is the operation, `ecmd[2:0]` the operand field
(R77, R79, R82). -/
def decodeEcmd (w : BitVec 5) : Except DecodeError Instr :=
  let eop := w.extractLsb' 3 2
  let operand := w.extractLsb' 0 3
  if eop = 0b00 ∧ operand = 0 then .ok .estart
  else if eop = 0b01 then .ok (.epush operand)
  else if eop = 0b10 ∧ operand = 0 then .ok .efin
  else .error (.reservedEcmd w)

/-- The decoder command word `dcmd[9:0]`: `dcmd[9:8]` is the operation, `dcmd[7:0]` the operand field
(R78, R80, R82). -/
def decodeDcmd (w : BitVec 10) : Except DecodeError Instr :=
  let dop := w.extractLsb' 8 2
  let operand := w.extractLsb' 0 8
  if dop = 0b00 ∧ operand = 0 then .ok .dstart
  else if dop = 0b01 then .ok (.dbyte operand)
  else if dop = 0b10 ∧ operand = 0 then .ok .drun
  else .error (.reservedDcmd w)

/-- The data code that stands for what `INV` gives. -/
def instrOfGroup : Option Sym → Instr
  | some .ink0 => .symInk0
  | some .ink1 => .symInk1
  | some .ink2 => .symInk2
  | some .ink3 => .symInk3
  | some .ink4 => .symInk4
  | some .lineEnd => .symLineEnd
  | some .streamEnd => .symStreamEnd
  | none => .symUnused

/-- A group of the bit stream is looked up in `INV`; every pattern is one of the eight rows (R73,
R147). -/
def decodeSym3 (t : CodeTable) (v : Sym3) : Except DecodeError Instr :=
  .ok (instrOfGroup (t.inv v))

/-- The filler's code is the single bit `FILLER_BIT` (R74). -/
def decodeFill1 (fillerBit : Bool) (f : BitVec 1) : Except DecodeError Instr :=
  if f = BitVec.ofBool fillerBit then .ok .filler else .error (.notTheFiller f)

/-- The decoder, total on the words of every format and rejecting by name. -/
def decode (c : Config) : CodeWord → Except DecodeError Instr
  | .ecmd w => decodeEcmd w
  | .dcmd w => decodeDcmd w
  | .sym3 v => decodeSym3 c.code v
  | .fill1 f => decodeFill1 c.fillerBit f

/-! ### Encoding (R72, R74, R77, R78) -/

/-- `01sss` -/
def epushWord (sid : Sid) : BitVec 5 := 0b01#2 ++ sid

/-- `01bbbbbbbb` -/
def dbyteWord (b : Byte) : BitVec 10 := 0b01#2 ++ b

/-- The word of an instruction under an instance's parameters. -/
def encode (c : Config) : Instr → CodeWord
  | .estart => .ecmd 0b00000
  | .epush sid => .ecmd (epushWord sid)
  | .efin => .ecmd 0b10000
  | .dstart => .dcmd 0b0000000000
  | .dbyte b => .dcmd (dbyteWord b)
  | .drun => .dcmd 0b1000000000
  | .symInk0 => .sym3 (c.code.codeOf .ink0)
  | .symInk1 => .sym3 (c.code.codeOf .ink1)
  | .symInk2 => .sym3 (c.code.codeOf .ink2)
  | .symInk3 => .sym3 (c.code.codeOf .ink3)
  | .symInk4 => .sym3 (c.code.codeOf .ink4)
  | .symLineEnd => .sym3 (c.code.codeOf .lineEnd)
  | .symStreamEnd => .sym3 (c.code.codeOf .streamEnd)
  | .symUnused => .sym3 unusedPattern
  | .filler => .fill1 (BitVec.ofBool c.fillerBit)

/-! ### The words of spec/opcode_table.json

The table gives a row a width and no channel, so a width stands for a format: 5 for `ECMD5`, 10 for
`DCMD10`, 3 for `SYM3`, 1 for `FILL1`. Rounded up to whole bytes, `DCMD10` has 16 bits and the
other three have 8. An 8-bit word of value 1 to 7 is then read as `SYM3`, for as `ECMD5` it would be
reserved, and every other one as `ECMD5` (log entry 11). -/

/-- The word of a format that the table's bits `w` of width `nbits` stand for. -/
def tableWord (nbits w : Nat) : Option CodeWord :=
  if nbits = 1 then (if w < 2 then some (.fill1 (BitVec.ofNat 1 w)) else none)
  else if nbits = 3 then (if w < 8 then some (.sym3 (BitVec.ofNat 3 w)) else none)
  else if nbits = 5 then (if w < 32 then some (.ecmd (BitVec.ofNat 5 w)) else none)
  else if nbits = 8 then
    if w = 0 then some (.ecmd 0)
    else if w < 8 then some (.sym3 (BitVec.ofNat 3 w))
    else if w < 32 then some (.ecmd (BitVec.ofNat 5 w))
    else none
  else if nbits = 10 ∨ nbits = 16 then
    (if w < 1024 then some (.dcmd (BitVec.ofNat 10 w)) else none)
  else none

/-- The parameters under which the opcode table writes a word: its `SYM3` rows stand under the
default `CODE`, and its `FILL1` bit is the filler. A command word stands under any (log entry
11). -/
def tableParams (word : CodeWord) (c : Config) : Config :=
  match word with
  | .ecmd _ => c
  | .dcmd _ => c
  | .sym3 _ => { c with code := CodeTable.default }
  | .fill1 f => { c with fillerBit := f.getLsbD 0 }

/-- The instruction the decoder reads from a word of the opcode table. -/
def decodeTableWord (nbits w : Nat) : Option Instr :=
  match tableWord nbits w with
  | none => none
  | some word =>
    match decode (tableParams word Config.reference) word with
    | .ok i => some i
    | .error _ => none

end Sys2Proof
end

