-- ==== Sys2Proof/Machine/State.lean ====
section
/-! DEFINITION. The state of the machine (spec/10_state.md), what a step can stop with, and the machine
right after power-on and reset. -/

namespace Sys2Proof.Machine

/-- Why the machine stops with a fault. -/
inductive Fault where
  /-- An append would write outside `ACC[23:0]`. Raised by the shared operation `addBits` of
  Machine/Ops.lean, on behalf of `EPUSH`, `EFIN` and `FILLER`. R121 states `CNT + w <= 24` as the
  write's precondition and R125 forbids "a saturating or wrapping behaviour for the unreachable
  case". Safe: no reachable state raises it (log entry 12). -/
  | accOverrun
deriving DecidableEq, Repr

/-- Why a command has no step (R180: "In a model it is a refusal"). Every refusal is safe: the spec
gives the command no step there. -/
inductive Refusal where
  /-- Raised by an arm of `exec` for an instruction that has no meaning yet; no arm does. -/
  | notModelled (mnemonic : String)
  /-- Raised by `EPUSH`, `EFIN` (R111), `DBYTE` and `DRUN` (R160) when the unit's session has
  ended. -/
  | sessionEnded
  /-- Raised by a command that would make `len(OUT)` exceed `CAP_OUT` or `len(IN)` exceed `CAP_IN`
  (R63, R103, R107, R141). -/
  | noCapacity
  /-- Raised by the step for a reserved command word (R82). -/
  | reservedWord
  /-- Raised by the step for a `FILL1` bit that is not the instance's filler (R74). -/
  | notTheFiller
deriving DecidableEq, Repr

/-- `EST[1:0]` (R26). The code 0b11 never occurs and has no constructor. -/
inductive EncStatus where
  | active
  | done
  | failed
deriving DecidableEq, Repr

/-- `EERR[1:0]` (R27). -/
inductive EncError where
  | noError
  | unknownSymbol
deriving DecidableEq, Repr

/-- `DST[1:0]` (R39). -/
inductive DecStatus where
  | loading
  | done
  | failed
deriving DecidableEq, Repr

/-- `DERR[1:0]` (R40). -/
inductive DecError where
  | noError
  | invalidCode
  | endOfDigits
deriving DecidableEq, Repr

/-- The state of the encoder unit `ENC` but for its log (R20). -/
structure Enc where
  /-- `ACC`, the block accumulator (R21) -/
  acc : Acc
  /-- `CNT`, the number of valid bits in `ACC` (R22) -/
  cnt : Cnt
  /-- `OUT`, the staging sequence, index 0 first (R29) -/
  out : List Byte
  /-- `EST`, the session status (R26) -/
  est : EncStatus
  /-- `EERR`, the error code (R27) -/
  eerr : EncError
deriving DecidableEq, Repr

/-- The state of the decoder unit `DEC` but for its log (R35). -/
structure Dec where
  /-- `IN`, the input byte sequence, index 0 first (R36) -/
  inp : List Byte
  /-- `DOUT`, the decoded symbols of the session (R37) -/
  dout : List Sid
  /-- `DGRP`, the group index (R38) -/
  dgrp : Nat
  /-- `DST`, the session status (R39) -/
  dst : DecStatus
  /-- `DERR`, the error code (R40) -/
  derr : DecError
deriving DecidableEq, Repr

/-- What the host can present to the hardware: the reset input (R190) and a word on a unit's command
channel (R207). The host can present neither a data code nor a filler (R76, R120). -/
inductive HostInput where
  | rst
  | ecmd (w : BitVec 5)
  | dcmd (w : BitVec 10)
deriving DecidableEq, Repr

/-- A data-code word at the machine's inner code input (log entry 10). -/
inductive MicroWord where
  | sym3 (v : Sym3)
  | fill1 (f : BitVec 1)
deriving DecidableEq, Repr

/-- The whole machine. `enc`, `dec`, `elog` and `dlog` are the spec's state; `cfg`, `port` and `micro`
are the model's own fields. -/
structure State where
  /-- the encoder unit -/
  enc : Enc
  /-- the decoder unit -/
  dec : Dec
  /-- `ELOG`, the committed artifacts, oldest first (R31) -/
  elog : List (List Byte)
  /-- `DLOG`, the committed symbol grids, oldest first (R44) -/
  dlog : List (List Sid)
  /-- MODEL: the parameters of R7 this instance is built with. No step writes it (log entry 3). -/
  cfg : Config
  /-- MODEL: the inputs the host presents, in the order it presents them; a step takes the first
  (log entry 1). -/
  port : List HostInput
  /-- MODEL: the inner code input, one data-code word to run before the next host input. No step
  writes a word to it (log entry 10). -/
  micro : Option MicroWord
deriving DecidableEq, Repr

/-- The encoder's state after reset (R34, R191). -/
def Enc.reset : Enc where
  acc := 0
  cnt := 0
  out := []
  est := .active
  eerr := .noError

/-- The decoder's state after reset (R43, R191). -/
def Dec.reset : Dec where
  inp := []
  dout := []
  dgrp := 0
  dst := .loading
  derr := .noError

/-- An instance built with the given parameters, right after power-on and reset: both units in their
reset state, both logs empty (R31, R44, R191), no host input presented. -/
def State.powerOn (c : Config) : State where
  enc := Enc.reset
  dec := Dec.reset
  elog := []
  dlog := []
  cfg := c
  port := []
  micro := none

/-- The machine right after reset, for an instance of which only R7's constraints and the unbounded
capacities are known (log entries 4, 5 and 6). -/
def State.reset : State := State.powerOn Config.reference

end Sys2Proof.Machine
end

