-- ==== Sys2Proof/Machine/Bits.lean ====
section
/-! DEFINITION. Bit and byte order: stream bits and vectors, `le`, `pack`, `bitlen` and the two memory
primitives (00_scope.md R9, R11, R12; 20_memory.md R51 to R55). -/

namespace Sys2Proof.Machine

/-- The value of a bit string whose first bit has weight 1 (R9 (c), R51). -/
def bitsVal : List Bool → Nat
  | [] => 0
  | b :: bs => b.toNat + 2 * bitsVal bs

/-- The bits of a 3-bit vector in stream order: `c_k` is `v[k]` (R9 (c), R71). -/
def codeBits (v : Sym3) : List Bool :=
  [v.getLsbD 0, v.getLsbD 1, v.getLsbD 2]

/-- The vector of a 3-bit group `c0 c1 c2` (R9 (c), R145). -/
def groupVec (c0 c1 c2 : Bool) : Sym3 :=
  BitVec.ofNat 3 (bitsVal [c0, c1, c2])

/-- `ACC[p] <- b` (R121). -/
def setBit (a : Acc) (p : Nat) (b : Bool) : Acc :=
  if b then a ||| (1#24 <<< p) else a &&& ~~~(1#24 <<< p)

/-- `ACC[p + k] <- bits[k]` for every k (R121). -/
def writeBits (a : Acc) (p : Nat) : List Bool → Acc
  | [] => a
  | b :: bs => writeBits (setBit a p b) (p + 1) bs

/-- The `n` low bytes of a number, least significant first (R11, R52). -/
def leBytes : Nat → Nat → List Byte
  | 0, _ => []
  | n + 1, v => BitVec.ofNat 8 v :: leBytes n (v / 256)

/-- `MemWrite(len(OUT), n, v)`: the one legal address is the end of the sequence (R11, R56). -/
def memAppend (out : List Byte) (n v : Nat) : List Byte :=
  out ++ leBytes n v

/-- `le(bytes)`, the little-endian value of a byte sequence (R12). -/
def le : List Byte → Nat
  | [] => 0
  | b :: bs => b.toNat + 256 * le bs

/-- One byte of the input sequence; an index at or above its length reads as 0 (R11, R55). -/
def byteAt (inp : List Byte) (k : Nat) : Byte :=
  inp.getD k 0

/-- `MemRead(addr, n)` on the input sequence: `n` consecutive bytes as a little-endian number (R11,
R55). -/
def memRead (inp : List Byte) (addr : Nat) : Nat → Nat
  | 0 => 0
  | n + 1 => (byteAt inp addr).toNat + 256 * memRead inp (addr + 1) n

/-- `pack(bits)`: byte k is the sum over j of `bits[8k+j]·2^j`. R12 gives it for a length that is a
multiple of 8; a last group of fewer bits packs to nothing. -/
def pack : List Bool → List Byte
  | b0 :: b1 :: b2 :: b3 :: b4 :: b5 :: b6 :: b7 :: rest =>
    BitVec.ofNat 8 (bitsVal [b0, b1, b2, b3, b4, b5, b6, b7]) :: pack rest
  | _ => []

/-- `bitlen(M)`: 0 for 0, else the index of the highest 1 bit plus one (R12). -/
def bitlen (m : Nat) : Nat :=
  if m = 0 then 0 else Nat.log2 m + 1

/-- The polynomial with the given coefficients, lowest first. -/
def polyAt (len : Nat) : List Nat → Nat
  | [] => 0
  | a :: rest => a + len * polyAt len rest

/-- The function of the byte count that a `PadWidth` names. -/
def padWidthAt : PadWidth → Nat → Nat
  | .table overrides poly, len => overrides.getD len (polyAt len poly)
  | .free k, len => Config.freePadWidth k len

end Sys2Proof.Machine

/-- `W_MIN` of an instance, a function of the byte count (R7, R143). -/
def Sys2Proof.Config.wMin (c : Sys2Proof.Config) : Nat → Nat :=
  Sys2Proof.Machine.padWidthAt c.padWidth
end

