-- ==== Sys2Proof/Machine/Flags.lean ====
section
/-! DEFINITION. The hardware has no arithmetic flags (10_state.md R25). Here stand the conditions its control
tests, the capacity test (20_memory.md R63), the numeric codes of the status registers (R88) and
what the host can read (R23, R28, R42). -/

namespace Sys2Proof.Machine

/-- `CNT = 24`: equality, not "at least" (R121, R131, R201). -/
def blockFull (e : Enc) : Bool :=
  e.cnt == 24#5

/-- A sequence of `n` bytes stays within a capacity (R63). -/
def capAllows (cap : Option Nat) (n : Nat) : Bool :=
  match cap with
  | none => true
  | some c => decide (n ≤ c)

/-- One more block fits in `OUT`: `len(OUT) + 3 <= CAP_OUT` (R63, R103, R107). -/
def outHasRoom (s : State) : Bool :=
  capAllows s.cfg.capOut (s.enc.out.length + blockBytes)

/-- One more byte fits in `IN`: `len(IN) + 1 <= CAP_IN` (R63, R141). -/
def inpHasRoom (s : State) : Bool :=
  capAllows s.cfg.capIn (s.dec.inp.length + 1)

/-- The codes of `EST` (R88). -/
def estCode : EncStatus → BitVec 2
  | .active => 0b00
  | .done => 0b01
  | .failed => 0b10

/-- The codes of `EERR` (R88). -/
def eerrCode : EncError → BitVec 2
  | .noError => 0b00
  | .unknownSymbol => 0b01

/-- The codes of `DST` (R88). -/
def dstCode : DecStatus → BitVec 2
  | .loading => 0b00
  | .done => 0b01
  | .failed => 0b10

/-- The codes of `DERR` (R88). -/
def derrCode : DecError → BitVec 2
  | .noError => 0b00
  | .invalidCode => 0b01
  | .endOfDigits => 0b10

/-- What the host can read: the status outputs S0 to S4 (R28), `DOUT` and the two logs (R23, R42).
`ACC`, `CNT`, `OUT` and `IN` are not among them. -/
structure HostView where
  /-- S0, `EST` -/
  s0 : BitVec 2
  /-- S1, `EERR` -/
  s1 : BitVec 2
  /-- S2, `DST` -/
  s2 : BitVec 2
  /-- S3, `DERR` -/
  s3 : BitVec 2
  /-- S4, `DGRP` -/
  s4 : Nat
  dout : List Sid
  elog : List (List Byte)
  dlog : List (List Sid)
deriving DecidableEq, Repr

/-- The host's view of a state. -/
def hostView (s : State) : HostView where
  s0 := estCode s.enc.est
  s1 := eerrCode s.enc.eerr
  s2 := dstCode s.dec.dst
  s3 := derrCode s.dec.derr
  s4 := s.dec.dgrp
  dout := s.dec.dout
  elog := s.elog
  dlog := s.dlog

end Sys2Proof.Machine
end

