-- ==== Sys2Proof/Machine/Operands.lean ====
section
/-! DEFINITION. How each operand becomes what its command works on: the sid of `EPUSH` becomes three stream
bits (30_encoding.md R79), the input sequence of `DRUN` becomes the digit string and its groups
(42_decoder.md R143 to R145), and a group becomes an action (R147). -/

namespace Sys2Proof.Machine

/-- The three stream bits of a symbol under an instance's `CODE` (R79). -/
def symBitsOf (c : Config) (y : Sym) : List Bool :=
  codeBits (c.code.codeOf y)

/-- The one stream bit of the filler (R74). -/
def fillerBitsOf (c : Config) : List Bool :=
  [c.fillerBit]

/-- `DLEN = max(W_MIN(L), bitlen(M))` (R143). -/
def digitLen (wMin : Nat → Nat) (inp : List Byte) : Nat :=
  max (wMin inp.length) (bitlen (le inp))

/-- The digit string: `DLEN` digits, the digit at offset i being bit i of `M` (R143). -/
def digits (wMin : Nat → Nat) (inp : List Byte) : List Bool :=
  (List.range (digitLen wMin inp)).map (le inp).testBit

/-- How a scan ends (R148). -/
inductive ScanEnd where
  | success
  | invalidCode
  | endOfDigits
deriving DecidableEq, Repr

/-- What one existing group makes the scan do (R147). -/
inductive GroupAction where
  /-- append the sid to `DOUT` and go on to the next group -/
  | emit (sid : Sid)
  /-- end the scan -/
  | stop (e : ScanEnd)
deriving DecidableEq, Repr

/-- The action for what `INV` gives, with no default arm (R73, R147). -/
def groupAction : Option Sym → GroupAction
  | some .ink0 => .emit 0
  | some .ink1 => .emit 1
  | some .ink2 => .emit 2
  | some .ink3 => .emit 3
  | some .ink4 => .emit 4
  | some .lineEnd => .emit 5
  | some .streamEnd => .stop .success
  | none => .stop .invalidCode

/-- Where and how a scan ended. -/
structure ScanResult where
  /-- the group index at the stop -/
  g : Nat
  /-- the symbols emitted before the stop -/
  dout : List Sid
  how : ScanEnd
deriving DecidableEq, Repr

/-- The loop of `DRUN` over the digits not yet scanned, at group index `g` with `dout` emitted so far:
no digits left, then one or two digits left, then the table lookup (R148, R151, R152, R178). -/
def scan (t : CodeTable) (g : Nat) (dout : List Sid) : List Bool → ScanResult
  | [] => ⟨g, dout, .endOfDigits⟩
  | [_] => ⟨g, dout, .invalidCode⟩
  | [_, _] => ⟨g, dout, .invalidCode⟩
  | c0 :: c1 :: c2 :: rest =>
    match groupAction (t.inv (groupVec c0 c1 c2)) with
    | .emit sid => scan t (g + 1) (dout ++ [sid]) rest
    | .stop e => ⟨g, dout, e⟩

end Sys2Proof.Machine
end

