-- ==== Sys2Proof/Machine/Ops.lean ====
section
/-! DEFINITION. The named operations: the bit-buffer controller (41_bitbuffer.md), failure entry, which stands
in for taking an exception (60_exceptions.md R179), the start of a new session, the only way on
after a failure (R182), and the commits. -/

namespace Sys2Proof.Machine

/-- Do `f` in the next state; a fault or a refusal ends the command with no effect. -/
def andThen (x : Host.Outcome State Fault Refusal)
    (f : State → Host.Outcome State Fault Refusal) : Host.Outcome State Fault Refusal :=
  match x with
  | .next s => f s
  | .fault r => .fault r
  | .refused r => .refused r

/-! ### Failure entry and recovery -/

/-- The errors a unit can raise (R170). -/
inductive Failure where
  | unknownSymbol
  | invalidCode
  | endOfDigits
deriving DecidableEq, Repr

/-- Failure entry (R171 to R173, R175, R179): the unit writes its error and status registers, clears
its staging state, commits nothing; the other unit and the logs are untouched. No control is
transferred and nothing else is saved. -/
def raise (f : Failure) (s : State) : State :=
  match f with
  | .unknownSymbol =>
    { s with enc := { acc := 0, cnt := 0, out := [], est := .failed, eerr := .unknownSymbol } }
  | .invalidCode =>
    { s with dec := { s.dec with inp := [], dst := .failed, derr := .invalidCode } }
  | .endOfDigits =>
    { s with dec := { s.dec with inp := [], dst := .failed, derr := .endOfDigits } }

/-- A new encoder session (R100, R182). -/
def openEnc (s : State) : State :=
  { s with enc := { acc := 0, cnt := 0, out := [], est := .active, eerr := .noError } }

/-- A new decoder session (R140, R182). -/
def openDec (s : State) : State :=
  { s with dec := { inp := [], dout := [], dgrp := 0, dst := .loading, derr := .noError } }

/-- The reset input: both units in the state of R191, the logs unchanged, an open session lost
(R190, R191). -/
def afterRst (s : State) : State :=
  { s with enc := Enc.reset, dec := Dec.reset }

/-! ### The bit-buffer controller -/

/-- `FLUSH`: the block's three bytes go to the end of `OUT` in one step and the buffer is cleared
(R122); no step where `OUT` has no room for them (R63). -/
def flush (s : State) : Host.Outcome State Fault Refusal :=
  if outHasRoom s then
    .next { s with enc := { s.enc with
              out := memAppend s.enc.out blockBytes s.enc.acc.toNat, acc := 0, cnt := 0 } }
  else .refused .noCapacity

/-- The flush test of an append, "before adding, never after" (R120, R121). -/
def flushIfFull (s : State) : Host.Outcome State Fault Refusal :=
  if blockFull s.enc then flush s else .next s

/-- The writes of an append. R121's precondition `CNT + w <= 24` is tested, and its unreachable
failure is a fault (R125; log entry 12). -/
def addBits (bits : List Bool) (s : State) : Host.Outcome State Fault Refusal :=
  if s.enc.cnt.toNat + bits.length ≤ blockBits then
    .next { s with enc := { s.enc with
              acc := writeBits s.enc.acc s.enc.cnt.toNat bits,
              cnt := s.enc.cnt + BitVec.ofNat 5 bits.length } }
  else .fault .accOverrun

/-- `APPEND(bits)` (R121). -/
def append (bits : List Bool) (s : State) : Host.Outcome State Fault Refusal :=
  andThen (flushIfFull s) (addBits bits)

/-- `FILL`: append one filler bit (R123). -/
def fill (s : State) : Host.Outcome State Fault Refusal :=
  append (fillerBitsOf s.cfg) s

/-- `FILL`, n times (R105). -/
def fillTimes : Nat → State → Host.Outcome State Fault Refusal
  | 0, s => .next s
  | n + 1, s => andThen (fill s) (fillTimes n)

/-! ### Encoder operations -/

/-- The source's `append(symbol)`: flush first, then look the symbol up, then add its code or fail
with `UnknownSymbol` (R101, R102). -/
def pushSid (sid : Sid) (s : State) : Host.Outcome State Fault Refusal :=
  andThen (flushIfFull s) fun t =>
    match symOfSid sid with
    | some y => addBits (symBitsOf t.cfg y) t
    | none => .next (raise .unknownSymbol t)

/-- The end of `EFIN`: the artifact is committed, the leftover bits are discarded and the session's
state is released (R105, R108). -/
def commitArtifact (s : State) : State :=
  { s with
    elog := s.elog ++ [s.enc.out],
    enc := { s.enc with acc := 0, cnt := 0, out := [], est := .done } }

/-! ### Decoder operations -/

/-- `IN <- IN ++ [b]` (R141). -/
def loadByte (b : Byte) (s : State) : State :=
  { s with dec := { s.dec with inp := s.dec.inp ++ [b] } }

/-- The scan goes on: one symbol is emitted and the group index rises by one (R147). -/
def emitSid (sid : Sid) (s : State) : State :=
  { s with dec := { s.dec with dout := s.dec.dout ++ [sid], dgrp := s.dec.dgrp + 1 } }

/-- The end of a scan at the current group index: the input is released, and either the grid is
committed or the unit fails (R148). -/
def endScan (e : ScanEnd) (s : State) : State :=
  match e with
  | .success =>
    { s with
      dlog := s.dlog ++ [s.dec.dout],
      dec := { s.dec with inp := [], dst := .done } }
  | .invalidCode => raise .invalidCode s
  | .endOfDigits => raise .endOfDigits s

/-- One scanned group acts on the decoder (R147). -/
def scanGroup (y : Option Sym) (s : State) : State :=
  match groupAction y with
  | .emit sid => emitSid sid s
  | .stop e => endScan e s

/-- The whole scan of the loaded input (R148). -/
def runScan (s : State) : State :=
  let r := scan s.cfg.code 0 [] (digits s.cfg.wMin s.dec.inp)
  endScan r.how { s with dec := { s.dec with dout := r.dout, dgrp := r.g } }

end Sys2Proof.Machine
end

