-- ==== Sys2Proof/Machine/BitBuffer.lean ====
section
/-! DEFINITION. The data code of the bit-buffer controller: the filler (41_bitbuffer.md R123). -/

namespace Sys2Proof.Machine

/-- `FILLER`: the micro-operation `FILL` by itself, which tests no session status (R121, R123; log
entry 10). -/
def execFiller (s : State) : Host.Outcome State Fault Refusal :=
  fill s

end Sys2Proof.Machine
end

