-- ==== Sys2Proof/Machine/Decoder.lean ====
section
/-! DEFINITION. The decoder commands (42_decoder.md). -/

namespace Sys2Proof.Machine

/-- `DSTART`: open a new session, in every value of `DST` (R140). -/
def execDstart (s : State) : Host.Outcome State Fault Refusal :=
  .next (openDec s)

/-- `DBYTE b`: supply the next byte, while the session is loading and `IN` has room (R141, R160). -/
def execDbyte (b : Byte) (s : State) : Host.Outcome State Fault Refusal :=
  if s.dec.dst = .loading then
    if inpHasRoom s then .next (loadByte b s) else .refused .noCapacity
  else .refused .sessionEnded

/-- `DRUN`: the byte sequence is complete; decode it, while the session is loading (R142, R148,
R160). -/
def execDrun (s : State) : Host.Outcome State Fault Refusal :=
  if s.dec.dst = .loading then .next (runScan s) else .refused .sessionEnded

end Sys2Proof.Machine
end

