-- ==== Sys2Proof/Machine/Encoder.lean ====
section
/-! DEFINITION. The encoder commands (40_encoder.md). -/

namespace Sys2Proof.Machine

/-- `ESTART`: open a new session, in every value of `EST` (R100). -/
def execEstart (s : State) : Host.Outcome State Fault Refusal :=
  .next (openEnc s)

/-- `EPUSH sid`: append one alphabet symbol, while the session is open (R101, R103, R111, R177). -/
def execEpush (sid : Sid) (s : State) : Host.Outcome State Fault Refusal :=
  if s.enc.est = .active then pushSid sid s else .refused .sessionEnded

/-- `EFIN`: 24 filler appends, then commit, while the session is open (R105, R107, R111). -/
def execEfin (s : State) : Host.Outcome State Fault Refusal :=
  if s.enc.est = .active then
    andThen (fillTimes fillCount s) fun t => .next (commitArtifact t)
  else .refused .sessionEnded

end Sys2Proof.Machine
end

