-- ==== Sys2Proof/Machine/Groups.lean ====
section
/-! DEFINITION. The data codes of the decoder's scan: the action of one existing group, by what `INV` gives
for it (42_decoder.md R147, R150). Each tests no session status: inside `DRUN` the session is open
(R142; log entry 10). -/

namespace Sys2Proof.Machine

/-- `SYM_Ink0`: append sid 0 to `DOUT`, go on to the next group (R147). -/
def execSymInk0 (s : State) : Host.Outcome State Fault Refusal :=
  .next (scanGroup (some .ink0) s)

/-- `SYM_Ink1` (R147). -/
def execSymInk1 (s : State) : Host.Outcome State Fault Refusal :=
  .next (scanGroup (some .ink1) s)

/-- `SYM_Ink2` (R147). -/
def execSymInk2 (s : State) : Host.Outcome State Fault Refusal :=
  .next (scanGroup (some .ink2) s)

/-- `SYM_Ink3` (R147). -/
def execSymInk3 (s : State) : Host.Outcome State Fault Refusal :=
  .next (scanGroup (some .ink3) s)

/-- `SYM_Ink4` (R147). -/
def execSymInk4 (s : State) : Host.Outcome State Fault Refusal :=
  .next (scanGroup (some .ink4) s)

/-- `SYM_LineEnd`: append sid 5 to `DOUT`, go on to the next group (R147). -/
def execSymLineEnd (s : State) : Host.Outcome State Fault Refusal :=
  .next (scanGroup (some .lineEnd) s)

/-- `SYM_StreamEnd`: end the scan with success and commit what was decoded (R147, R148, R149). -/
def execSymStreamEnd (s : State) : Host.Outcome State Fault Refusal :=
  .next (scanGroup (some .streamEnd) s)

/-- `SYM_UNUSED`: end the scan with `InvalidCode` (R147, R150, R172). -/
def execSymUnused (s : State) : Host.Outcome State Fault Refusal :=
  .next (scanGroup none s)

end Sys2Proof.Machine
end

