-- ==== Sys2Proof/Machine/Dispatch.lean ====
section
/-! DEFINITION. The meaning of every instruction: one arm per constructor. -/

namespace Sys2Proof.Machine

def exec (i : Instr) (s : State) : Host.Outcome State Fault Refusal :=
  match i with
  | .estart => Sys2Proof.Machine.execEstart s
  | .epush sid => Sys2Proof.Machine.execEpush sid s
  | .efin => Sys2Proof.Machine.execEfin s
  | .dstart => Sys2Proof.Machine.execDstart s
  | .dbyte b => Sys2Proof.Machine.execDbyte b s
  | .drun => Sys2Proof.Machine.execDrun s
  | .symInk0 => Sys2Proof.Machine.execSymInk0 s
  | .symInk1 => Sys2Proof.Machine.execSymInk1 s
  | .symInk2 => Sys2Proof.Machine.execSymInk2 s
  | .symInk3 => Sys2Proof.Machine.execSymInk3 s
  | .symInk4 => Sys2Proof.Machine.execSymInk4 s
  | .symLineEnd => Sys2Proof.Machine.execSymLineEnd s
  | .symStreamEnd => Sys2Proof.Machine.execSymStreamEnd s
  | .symUnused => Sys2Proof.Machine.execSymUnused s
  | .filler => Sys2Proof.Machine.execFiller s

end Sys2Proof.Machine
end

