-- ==== Sys2Proof/Machine/Fetch.lean ====
section
/-! DEFINITION. How a step takes its next word. There is no program counter and nothing is fetched from
storage (10_state.md R24, 20_memory.md R62): the next word is the one the host presents first on
the command channels (R59, R207), or a data-code word at the inner code input (log entries 1
and 10). -/

namespace Sys2Proof.Machine

/-- What a step finds to do. -/
inductive Fetched where
  /-- the host presents nothing -/
  | idle
  /-- the host asserts and releases `rst`; the state is the one with that input taken -/
  | rst (s : State)
  /-- a word to decode; the state is the one with that word taken -/
  | word (w : CodeWord) (s : State)
deriving DecidableEq, Repr

/-- The word of a data code. -/
def MicroWord.toCodeWord : MicroWord → CodeWord
  | .sym3 v => .sym3 v
  | .fill1 f => .fill1 f

/-- Take the next word: the inner code input first, then the host's inputs in order. -/
def fetch (s : State) : Fetched :=
  match s.micro with
  | some m => .word m.toCodeWord { s with micro := none }
  | none =>
    match s.port with
    | [] => .idle
    | .rst :: rest => .rst { s with port := rest }
    | .ecmd w :: rest => .word (.ecmd w) { s with port := rest }
    | .dcmd w :: rest => .word (.dcmd w) { s with port := rest }

/-- The refusal of a word that is no instruction (R82, R180). -/
def refusalOf : DecodeError → Refusal
  | .reservedEcmd _ => .reservedWord
  | .reservedDcmd _ => .reservedWord
  | .notTheFiller _ => .notTheFiller

/-- Put a word where the next step takes it: a command word first on the host's channels with the
inner code input empty, a data code at the inner code input. -/
def placeWord (w : CodeWord) (s : State) : State :=
  match w with
  | .ecmd e => { s with micro := none, port := .ecmd e :: s.port }
  | .dcmd d => { s with micro := none, port := .dcmd d :: s.port }
  | .sym3 v => { s with micro := some (.sym3 v) }
  | .fill1 f => { s with micro := some (.fill1 f) }

end Sys2Proof.Machine
end

