-- ==== Sys2Proof/Machine/Step.lean ====
section
/-! DEFINITION. One step of the machine: the next input is taken whole (20_memory.md R59, 70_reset_and_hazards.md
R206: "Each command is one atomic step of its unit"). -/

namespace Sys2Proof.Machine

/-- One step: nothing where the host presents nothing (R176; log entry 2), the reset input (R190,
R191), or the meaning of the decoded word; a word that is no instruction is refused (R82). -/
def step (s : State) : Host.Outcome State Fault Refusal :=
  match fetch s with
  | .idle => .next s
  | .rst t => .next (afterRst t)
  | .word w t =>
    match decode t.cfg w with
    | .ok i => exec i t
    | .error e => .refused (refusalOf e)

/-- The host presents the word that the opcode table's bits stand for, to an instance with the
parameters under which the table writes that word; bits that are no word of any format change
nothing (log entries 1 and 11). -/
def State.withFetchWord (s : State) (nbits w : Nat) : State :=
  match tableWord nbits w with
  | some word => placeWord word { s with cfg := tableParams word s.cfg }
  | none => s

end Sys2Proof.Machine
end

