-- ==== Sys2Proof/Machine/Session.lean ====
section
/-! DEFINITION. Whole sessions: a sequence of instructions, the artifact of an encoder session as a function
(40_encoder.md R110), the result of a decoder session as a function (42_decoder.md R159), the
block-wise form of the scan (R155) and the well-formed symbol stream (00_scope.md R14). -/

namespace Sys2Proof.Machine

/-- A sequence of instructions, each to completion before the next (R59). -/
def execAll : List Instr → State → Host.Outcome State Fault Refusal
  | [], s => .next s
  | i :: is, s => andThen (exec i s) (execAll is)

/-- The pushes of a symbol sequence. -/
def pushAll (syms : List Sym) : List Instr :=
  syms.map fun y => .epush (sidOf y)

/-- The stream bits of a symbol sequence (R110). -/
def symbolBits (c : Config) (syms : List Sym) : List Bool :=
  syms.flatMap (symBitsOf c)

/-- The number of blocks of `n` stream bits, `ceil(n / 24)` (R110, R127). -/
def blockCount (n : Nat) : Nat :=
  (n + 23) / blockBits

/-- A bit stream filled up to whole blocks with filler bits (R110). -/
def paddedBits (c : Config) (bits : List Bool) : List Bool :=
  bits ++ List.replicate (blockBits * blockCount bits.length - bits.length) c.fillerBit

/-- `encode(syms)` (R110). -/
def encodeArtifact (c : Config) (syms : List Sym) : List Byte :=
  pack (paddedBits c (symbolBits c syms))

/-- `decode(bytes)`, a function of the bytes, `CODE` and `W_MIN` (R159). -/
def decodeBytes (t : CodeTable) (wMin : Nat → Nat) (bytes : List Byte) : ScanResult :=
  scan t 0 [] (digits wMin bytes)

/-- Group g of a digit string, where all its three digits exist (R145). -/
def groupAt (ds : List Bool) (g : Nat) : Option Sym3 :=
  if 3 * g + 3 ≤ ds.length then
    some (groupVec (ds.getD (3 * g) false) (ds.getD (3 * g + 1) false) (ds.getD (3 * g + 2) false))
  else none

/-- Group g as a field of its block: `W[3k+2:3k]` with `W = MemRead(3n, 3)`, `n = g div 8` and
`k = g mod 8` (R75, R145). -/
def blockGroup (inp : List Byte) (g : Nat) : Sym3 :=
  BitVec.ofNat 3 (memRead inp (3 * (g / symsPerBlock)) blockBytes / 2 ^ (3 * (g % symsPerBlock)))

/-- The scan done on block fields, from group `g` on, for at most the given number of groups: the
existence test is on `DLEN`, not on the byte count (R155). -/
def scanBlocks (t : CodeTable) (inp : List Byte) (dlen : Nat) :
    Nat → Nat → List Sid → ScanResult
  | 0, g, dout => ⟨g, dout, .endOfDigits⟩
  | n + 1, g, dout =>
    if dlen ≤ 3 * g then ⟨g, dout, .endOfDigits⟩
    else if dlen < 3 * g + 3 then ⟨g, dout, .invalidCode⟩
    else
      match groupAction (t.inv (blockGroup inp g)) with
      | .emit sid => scanBlocks t inp dlen n (g + 1) (dout ++ [sid])
      | .stop e => ⟨g, dout, e⟩

/-- The ink symbols. -/
def isInk : Sym → Bool
  | .ink0 => true
  | .ink1 => true
  | .ink2 => true
  | .ink3 => true
  | .ink4 => true
  | .lineEnd => false
  | .streamEnd => false

/-- A grid of at least one row, every row of exactly `cols >= 1` ink symbols (R14). -/
def gridWf (cols : Nat) (rows : List (List Sym)) : Bool :=
  decide (1 ≤ cols) && !rows.isEmpty && rows.all fun r => r.length == cols && r.all isInk

/-- The symbols of a grid before the terminator: each row followed by one `LineEnd` (R14). -/
def gridBody (rows : List (List Sym)) : List Sym :=
  rows.flatMap fun r => r ++ [.lineEnd]

/-- The well-formed symbol stream of a grid (R14). -/
def gridStream (rows : List (List Sym)) : List Sym :=
  gridBody rows ++ [.streamEnd]

end Sys2Proof.Machine
end

