-- ==== Sys2Proof/Machine/Script.lean ====
section
/-! DEFINITION. The script syntax and the pseudo-commands (30_encoding.md R85, R86): what the host presents
for a line of a script. -/

namespace Sys2Proof.Machine

/-- The host input that presents an instruction; the data codes are none (R76, R120). -/
def inputOf : Instr → Option HostInput
  | .estart => some (.ecmd 0b00000)
  | .epush sid => some (.ecmd (epushWord sid))
  | .efin => some (.ecmd 0b10000)
  | .dstart => some (.dcmd 0b0000000000)
  | .dbyte b => some (.dcmd (dbyteWord b))
  | .drun => some (.dcmd 0b1000000000)
  | .symInk0 => none
  | .symInk1 => none
  | .symInk2 => none
  | .symInk3 => none
  | .symInk4 => none
  | .symLineEnd => none
  | .symStreamEnd => none
  | .symUnused => none
  | .filler => none

/-- `EROW s1 ... sC` (R86). -/
def erow (row : List Sid) : List Instr :=
  row.map .epush ++ [.epush 5]

/-- `EGRID rows` (R86). -/
def egrid (rows : List (List Sid)) : List Instr :=
  [.estart] ++ rows.flatMap erow ++ [.epush 6, .efin]

/-- `DLOAD b0 b1 ...` (R86). -/
def dload (bytes : List Byte) : List Instr :=
  [.dstart] ++ bytes.map .dbyte

/-- `DDECODE bytes` (R86). -/
def ddecode (bytes : List Byte) : List Instr :=
  dload bytes ++ [.drun]

/-- `<sym>` of a script line (R85). -/
def symToken (t : List Char) : Option Sid :=
  if t = ['I', '0'] then some 0
  else if t = ['I', '1'] then some 1
  else if t = ['I', '2'] then some 2
  else if t = ['I', '3'] then some 3
  else if t = ['I', '4'] then some 4
  else if t = ['L', 'E'] then some 5
  else if t = ['S', 'E'] then some 6
  else if t = ['X'] then some 7
  else none

/-- A hexadecimal digit. -/
def hexDigit (c : Char) : Option Nat :=
  let n := c.toNat
  if 48 ≤ n ∧ n ≤ 57 then some (n - 48)
  else if 65 ≤ n ∧ n ≤ 70 then some (n - 55)
  else if 97 ≤ n ∧ n ≤ 102 then some (n - 87)
  else none

/-- `<byte>` of a script line, `0x` and one or two hexadecimal digits (R85). -/
def byteToken (t : List Char) : Option Byte :=
  match t with
  | ['0', 'x', h] => (hexDigit h).map (BitVec.ofNat 8)
  | ['0', 'x', h, l] =>
    match hexDigit h, hexDigit l with
    | some a, some b => some (BitVec.ofNat 8 (16 * a + b))
    | _, _ => none
  | _ => none

/-- The words of a line up to a `;`, which starts a comment (R85). -/
def tokens (word : List Char) : List Char → List (List Char)
  | [] => if word.isEmpty then [] else [word]
  | c :: cs =>
    if c = ';' then (if word.isEmpty then [] else [word])
    else if c = ' ' then
      (if word.isEmpty then tokens [] cs else word :: tokens [] cs)
    else tokens (word ++ [c]) cs

/-- The instructions of one script line: a command of R85, or a pseudo-command of R86 whose operands
are words (`EGRID` takes a grid and has no word form). An empty line or a comment is none. -/
def scriptLine (line : List Char) : Option (List Instr) :=
  match tokens [] line with
  | [] => some []
  | op :: args =>
    if op = "ESTART".toList ∧ args = [] then some [.estart]
    else if op = "EFIN".toList ∧ args = [] then some [.efin]
    else if op = "DSTART".toList ∧ args = [] then some [.dstart]
    else if op = "DRUN".toList ∧ args = [] then some [.drun]
    else if op = "EPUSH".toList ∧ args.length = 1 then (args.mapM symToken).map (·.map .epush)
    else if op = "DBYTE".toList ∧ args.length = 1 then (args.mapM byteToken).map (·.map .dbyte)
    else if op = "EROW".toList then (args.mapM symToken).map erow
    else if op = "DLOAD".toList then (args.mapM byteToken).map dload
    else if op = "DDECODE".toList then (args.mapM byteToken).map ddecode
    else none

end Sys2Proof.Machine
end

