-- ==== Sys2Proof/Machine/Text.lean ====
section
/-! DEFINITION. The boundary functions between characters and sids (30_encoding.md R87, 42_decoder.md R154).
They take the characters as an argument and no command uses them. -/

namespace Sys2Proof.Machine

/-- The character of a sid of `DOUT`: `INK_CHAR(k)` for 0 to 4, `NL_CHAR` for 5. The sids 6 and 7 are
in no `DOUT` (R37) and have no character (R154). -/
def charOfSid (t : TextChars) (sid : Sid) : List Char :=
  if sid = 0 then [t.ink0]
  else if sid = 1 then [t.ink1]
  else if sid = 2 then [t.ink2]
  else if sid = 3 then [t.ink3]
  else if sid = 4 then [t.ink4]
  else if sid = 5 then [t.newline]
  else []

/-- `text(DOUT)` (R154). -/
def text (t : TextChars) (dout : List Sid) : List Char :=
  dout.flatMap (charOfSid t)

/-- What the producer hands a front end (R87). -/
inductive FrontItem where
  | char (c : Char)
  | rowEnd
  | streamEnd
deriving DecidableEq, Repr

/-- The front end: an ink character to its sid, the row end to 5, the stream end to 6, any other
character to 7 (R83, R87). -/
def frontEnd (t : TextChars) : FrontItem → Sid
  | .char c =>
    if c = t.ink0 then 0
    else if c = t.ink1 then 1
    else if c = t.ink2 then 2
    else if c = t.ink3 then 3
    else if c = t.ink4 then 4
    else 7
  | .rowEnd => 5
  | .streamEnd => 6

/-- The lines of a grid, each followed by a line break (R154, 90_conflicts.md C3). -/
def gridText (t : TextChars) (rows : List (List Sym)) : List Char :=
  rows.flatMap fun r => r.flatMap (fun y => charOfSid t (sidOf y)) ++ [t.newline]

end Sys2Proof.Machine
end

