-- ==== Sys2Proof/Safety.lean ====
section
/-! DEFINITION. What holds of the machine after reset and after every step: the invariants the spec lists
(10_state.md R33, R45, with R22, R27, R30, R37, R40 and R63), and what a safe step is. -/

namespace Sys2Proof.Machine

/-- The encoder's invariants (R33, R27, R63). R33 (f) speaks of the number of symbols pushed, which
no state holds; its consequence "`CNT = 0` exactly when `n = 0`" is `fresh`. -/
structure EncInv (c : Config) (e : Enc) : Prop where
  cnt_le : e.cnt.toNat ≤ blockBits
  cnt_whole_symbols : e.est = .active → e.cnt.toNat % symBits = 0
  out_whole_blocks : e.out.length % blockBytes = 0
  acc_clear : ∀ j, e.cnt.toNat ≤ j → e.acc.getLsbD j = false
  released : e.est ≠ .active → e.cnt = 0 ∧ e.acc = 0 ∧ e.out = []
  fresh : e.est = .active → e.cnt = 0 → e.out = []
  error_iff : e.eerr = .unknownSymbol ↔ e.est = .failed
  out_fits : capAllows c.capOut e.out.length = true

/-- The decoder's invariants (R45, R40, R63). -/
structure DecInv (c : Config) (d : Dec) : Prop where
  fresh : d.dst = .loading → d.dout = [] ∧ d.dgrp = 0
  released : d.dst ≠ .loading → d.inp = [] ∧ d.dgrp = d.dout.length
  sids : ∀ x ∈ d.dout, x.toNat ≤ 5
  error_iff : d.derr = .noError ↔ d.dst ≠ .failed
  inp_fits : capAllows c.capIn d.inp.length = true

/-- The machine's invariant: both units' invariants, every committed artifact a whole number of
blocks (R30, R128), every committed grid free of terminators (R37), the parameters legal (R7), and
no data code at the inner code input (log entry 10). -/
structure Inv (s : State) : Prop where
  enc : EncInv s.cfg s.enc
  dec : DecInv s.cfg s.dec
  elog : ∀ a ∈ s.elog, a.length % blockBytes = 0
  dlog : ∀ g ∈ s.dlog, ∀ x ∈ g, x.toNat ≤ 5
  cfg : s.cfg.wf = true
  micro : s.micro = none

/-- A number of steps, to the first fault or refusal. -/
def runSteps : Nat → State → Host.Outcome State Fault Refusal
  | 0, s => .next s
  | n + 1, s => andThen (step s) (runSteps n)

/-- A step is safe where it does not fault. -/
def StepSafe (s : State) : Prop :=
  ∀ r, step s ≠ .fault r

end Sys2Proof.Machine
end

