-- ==== Sys2Proof/Certificates/Slice0/Obligations.lean ====
section
/-! DEFINITION. The statements for the provers, each with the rule of spec/ it formalises. A statement about an
instruction gives the whole next state as an update of the old one, so every part of the state that
is not named in the update is unchanged. -/

open Sys2Proof Sys2Proof.Machine

/-! ### Reset and the start of a session -/

/-- R191, R34, R43: every piece of state after power-on, for every choice of the parameters,
and what the reset input leaves: both units in that state, both logs as they were. -/
def Obligations.ResetGivesEveryRegisterItsValue : Prop :=
  (∀ c : Config,
    (State.powerOn c).enc = ⟨0, 0, [], .active, .noError⟩ ∧
    (State.powerOn c).dec = ⟨[], [], 0, .loading, .noError⟩ ∧
    (State.powerOn c).elog = [] ∧ (State.powerOn c).dlog = [] ∧ (State.powerOn c).cfg = c) ∧
  (∀ s : State, afterRst s = { s with
    enc := ⟨0, 0, [], .active, .noError⟩,
    dec := ⟨[], [], 0, .loading, .noError⟩ })

/-- R100: `ESTART`, the word `00000`, has a step in every state and gives the encoder's reset state;
`ELOG` is not touched. -/
def Obligations.EstartOpensEmptySession : Prop :=
  ∀ s : State,
    decode s.cfg (.ecmd 0b00000) = .ok .estart ∧
    exec .estart s = .next { s with enc := ⟨0, 0, [], .active, .noError⟩ } ∧
    exec .estart s = .next { s with enc := (State.powerOn s.cfg).enc }

/-- R140: `DSTART`, the word `0000000000`, has a step in every state and gives the decoder's reset
state; `DLOG` is not touched. -/
def Obligations.DstartOpensEmptySession : Prop :=
  ∀ s : State,
    decode s.cfg (.dcmd 0b0000000000) = .ok .dstart ∧
    exec .dstart s = .next { s with dec := ⟨[], [], 0, .loading, .noError⟩ } ∧
    exec .dstart s = .next { s with dec := (State.powerOn s.cfg).dec }

/-! ### EPUSH -/

/-- R101, R104: with at most 21 bits in the buffer, a push appends the symbol's three code bits at
positions `CNT`, `CNT+1`, `CNT+2` and adds 3 to `CNT`; nothing else changes. -/
def Obligations.EpushAppendsSymbolCode : Prop :=
  ∀ (s : State) (y : Sym), s.enc.est = .active → s.enc.cnt.toNat ≤ 21 →
    ∃ (a : Acc) (n : Cnt),
      exec (.epush (sidOf y)) s = .next { s with enc := { s.enc with acc := a, cnt := n } } ∧
      n.toNat = s.enc.cnt.toNat + 3 ∧
      ∀ j, a.getLsbD j =
        if s.enc.cnt.toNat ≤ j ∧ j < s.enc.cnt.toNat + 3
        then (s.cfg.code.codeOf y).getLsbD (j - s.enc.cnt.toNat)
        else s.enc.acc.getLsbD j

/-- R101, R104, R122, R52: a push that finds 24 bits first appends `ACC[7:0]`, `ACC[15:8]`,
`ACC[23:16]` to `OUT`, then holds exactly the new symbol's code. -/
def Obligations.EpushFlushesWaitingBlock : Prop :=
  ∀ (s : State) (y : Sym), s.enc.est = .active → s.enc.cnt = 24 →
    capAllows s.cfg.capOut (s.enc.out.length + 3) = true →
    exec (.epush (sidOf y)) s = .next { s with enc := { s.enc with
      out := s.enc.out ++ [s.enc.acc.extractLsb' 0 8, s.enc.acc.extractLsb' 8 8,
        s.enc.acc.extractLsb' 16 8],
      acc := (s.cfg.code.codeOf y).setWidth 24,
      cnt := 3 } }

/-- R171, R101, R102: `EPUSH 7` fails the session with `UnknownSymbol` and releases its state; at
`CNT = 24` the result is the same state as at any other count. `ELOG` and everything else is
unchanged. No other sid raises the error, and `EFIN` cannot. -/
def Obligations.EpushUnknownSymbolFailsSession : Prop :=
  ∀ s : State, s.enc.est = .active →
    ((s.enc.cnt = 24 → capAllows s.cfg.capOut (s.enc.out.length + 3) = true) →
      exec (.epush 7) s = .next { s with enc := ⟨0, 0, [], .failed, .unknownSymbol⟩ }) ∧
    (∀ sid t, sid ≠ 7 → exec (.epush sid) s = .next t →
      t.enc.est = .active ∧ t.enc.eerr = s.enc.eerr) ∧
    (∀ t, exec .efin s = .next t → t.enc.est = .done ∧ t.enc.eerr = s.enc.eerr)

/-- R103, R177: a push that must flush with no room in `OUT` has no step, whatever its sid, even
7; with `CAP_OUT` unbounded no push is refused for capacity. -/
def Obligations.EpushWithoutRoomHasNoStep : Prop :=
  ∀ (s : State) (sid : Sid),
    (s.enc.est = .active → s.enc.cnt = 24 →
      (∃ c, s.cfg.capOut = some c ∧ c < s.enc.out.length + 3) →
      exec (.epush sid) s = .refused .noCapacity) ∧
    (s.cfg.capOut = none → exec (.epush sid) s ≠ .refused .noCapacity)

/-- R111: in an ended encoder session `EPUSH` and `EFIN` have no step; `ESTART` has, and the reset
input. -/
def Obligations.EndedEncoderSessionAcceptsOnlyEstart : Prop :=
  ∀ s : State, s.enc.est ≠ .active →
    (∀ sid : Sid, exec (.epush sid) s = .refused .sessionEnded) ∧
    exec .efin s = .refused .sessionEnded ∧
    (∃ t, exec .estart s = .next t ∧ t.enc.est = .active) ∧
    (afterRst s).enc.est = .active

/-! ### EFIN and the filler -/

/-- R106: what `EFIN` commits. With `q` bits in the buffer, 1 to 24, the artifact is `OUT` and one
block of the q buffered bits followed by `24 - q` filler bits; with none it is `OUT` alone. The
session's state is released. -/
def Obligations.EfinCommitsPaddedLastBlock : Prop :=
  ∀ s : State, s.enc.est = .active →
    (1 ≤ s.enc.cnt.toNat → s.enc.cnt.toNat ≤ 24 →
      capAllows s.cfg.capOut (s.enc.out.length + 3) = true →
      exec .efin s = .next { s with
        elog := s.elog ++ [s.enc.out ++
          pack ((List.range s.enc.cnt.toNat).map s.enc.acc.getLsbD ++
            List.replicate (24 - s.enc.cnt.toNat) s.cfg.fillerBit)],
        enc := { s.enc with acc := 0, cnt := 0, out := [], est := .done } }) ∧
    (s.enc.cnt = 0 →
      exec .efin s = .next { s with
        elog := s.elog ++ [s.enc.out],
        enc := { s.enc with acc := 0, cnt := 0, out := [], est := .done } })

/-- R105: `EFIN` is 24 filler appends, then the commit of `OUT`, then the release of the session's
state. The data code `FILLER` run by itself is the model's form of one `FILL` (log entry 10). -/
def Obligations.EfinIsTwentyFourFillersThenCommit : Prop :=
  ∀ (s t : State), s.enc.est = .active →
    (exec .efin s = .next t ↔
      ∃ u, execAll (List.replicate 24 .filler) s = .next u ∧
        t = { u with
          elog := u.elog ++ [u.enc.out],
          enc := { u.enc with acc := 0, cnt := 0, out := [], est := .done } })

/-- R126, R108: the 24 filler appends of `EFIN`, by the count `q` they start from. For `q` in 1 to 24
the appends before number `25 - q` only fill the block, that one flushes it (q buffered bits, then
filler bits) and leaves one bit, and no other flushes; the bits left over are `q`, all filler. For
`q = 0` none flushes and 24 filler bits are left. -/
def Obligations.FillerAppendsFlushOnceAtTheExpectedOne : Prop :=
  ∀ s : State,
    (1 ≤ s.enc.cnt.toNat → s.enc.cnt.toNat ≤ 24 →
      capAllows s.cfg.capOut (s.enc.out.length + 3) = true →
      (∀ k, k ≤ 24 - s.enc.cnt.toNat → ∃ u, fillTimes k s = .next u ∧
        u.enc.cnt.toNat = s.enc.cnt.toNat + k ∧ u.enc.out = s.enc.out) ∧
      (∀ k, 25 - s.enc.cnt.toNat ≤ k → k ≤ 24 → ∃ u, fillTimes k s = .next u ∧
        u.enc.cnt.toNat = k - (24 - s.enc.cnt.toNat) ∧
        u.enc.out = s.enc.out ++
          pack ((List.range s.enc.cnt.toNat).map s.enc.acc.getLsbD ++
            List.replicate (24 - s.enc.cnt.toNat) s.cfg.fillerBit) ∧
        ∀ j, j < u.enc.cnt.toNat → u.enc.acc.getLsbD j = s.cfg.fillerBit)) ∧
    (s.enc.cnt = 0 → ∃ u, fillTimes 24 s = .next u ∧ u.enc.cnt = 24 ∧
      u.enc.out = s.enc.out ∧ ∀ j, j < 24 → u.enc.acc.getLsbD j = s.cfg.fillerBit)

/-- R109: `EFIN` directly after `ESTART`, or after power-on, commits the empty byte sequence and ends
in `DONE`. -/
def Obligations.EmptySessionCommitsEmptyArtifact : Prop :=
  (∀ s : State, execAll [.estart, .efin] s = .next { s with
      elog := s.elog ++ [[]], enc := ⟨0, 0, [], .done, .noError⟩ }) ∧
  (∀ c : Config, exec .efin (State.powerOn c) = .next { State.powerOn c with
      elog := [[]], enc := ⟨0, 0, [], .done, .noError⟩ })

/-- R107: with bits in the buffer and no room for a block, `EFIN` has no step; with an empty buffer
it needs no room. -/
def Obligations.EfinWithoutRoomHasNoStep : Prop :=
  ∀ s : State, s.enc.est = .active → s.enc.cnt.toNat ≤ 24 →
    ((1 ≤ s.enc.cnt.toNat ∧ ∃ c, s.cfg.capOut = some c ∧ c < s.enc.out.length + 3) ↔
      exec .efin s = .refused .noCapacity)

/-- R21: the bits of `ACC` at `CNT` and above are never read: `EFIN` gives the same result whatever
they are. -/
def Obligations.EfinNeverReadsBitsAboveCount : Prop :=
  ∀ (s : State) (a : Acc), s.enc.cnt.toNat ≤ 24 →
    (∀ j, j < s.enc.cnt.toNat → a.getLsbD j = s.enc.acc.getLsbD j) →
    exec .efin { s with enc := { s.enc with acc := a } } = exec .efin s

/-- R121, R123: one filler append. Below 24 bits it writes `FILLER_BIT` at position `CNT` and adds 1
to `CNT`; at 24 it first flushes, and has no step where `OUT` has no room. That it runs by itself,
in every value of `EST`, is the model's choice (log entry 10). -/
def Obligations.FillerAppendsFillerBit : Prop :=
  ∀ s : State,
    (s.enc.cnt.toNat ≤ 23 → ∃ (a : Acc) (n : Cnt),
      exec .filler s = .next { s with enc := { s.enc with acc := a, cnt := n } } ∧
      n.toNat = s.enc.cnt.toNat + 1 ∧
      ∀ j, a.getLsbD j =
        if j = s.enc.cnt.toNat then s.cfg.fillerBit else s.enc.acc.getLsbD j) ∧
    (s.enc.cnt = 24 → capAllows s.cfg.capOut (s.enc.out.length + 3) = true →
      exec .filler s = .next { s with enc := { s.enc with
        out := s.enc.out ++ [s.enc.acc.extractLsb' 0 8, s.enc.acc.extractLsb' 8 8,
          s.enc.acc.extractLsb' 16 8],
        acc := (BitVec.ofBool s.cfg.fillerBit).setWidth 24,
        cnt := 1 } }) ∧
    (s.enc.cnt = 24 → capAllows s.cfg.capOut (s.enc.out.length + 3) = false →
      exec .filler s = .refused .noCapacity)

/-- R125, R121: where the precondition of an append fails the model stops with a fault, it neither
wraps nor saturates. No state that meets the invariants is such a state. That the stop is a fault is
the model's choice (log entry 12), and so is that `FILLER` runs by itself, in every value of `EST`
(log entry 10). -/
def Obligations.AppendOutsideAccumulatorFaults : Prop :=
  ∀ s : State,
    (∀ y : Sym, s.enc.est = .active → 22 ≤ s.enc.cnt.toNat → s.enc.cnt ≠ 24 →
      exec (.epush (sidOf y)) s = .fault .accOverrun) ∧
    (25 ≤ s.enc.cnt.toNat → exec .filler s = .fault .accOverrun) ∧
    (s.enc.est = .active → 25 ≤ s.enc.cnt.toNat → exec .efin s = .fault .accOverrun) ∧
    (Inv s → s.enc.cnt.toNat ≤ 24 ∧
      (s.enc.est = .active → s.enc.cnt.toNat ≠ 22 ∧ s.enc.cnt.toNat ≠ 23))

/-! ### DBYTE -/

/-- R141: `DBYTE b`, the word `01bbbbbbbb`, appends the byte while the session is loading and `IN` has
room for it, and has no step otherwise. -/
def Obligations.DbyteAppendsByteOrHasNoStep : Prop :=
  ∀ (s : State) (b : Byte),
    (s.dec.dst = .loading → capAllows s.cfg.capIn (s.dec.inp.length + 1) = true →
      exec (.dbyte b) s = .next { s with dec := { s.dec with inp := s.dec.inp ++ [b] } }) ∧
    (s.dec.dst = .loading → capAllows s.cfg.capIn (s.dec.inp.length + 1) = false →
      exec (.dbyte b) s = .refused .noCapacity) ∧
    (s.dec.dst ≠ .loading → exec (.dbyte b) s = .refused .sessionEnded) ∧
    decode s.cfg (.dcmd (0b01#2 ++ b)) = .ok (.dbyte b)

/-- R160: in an ended decoder session `DBYTE` and `DRUN` have no step; `DSTART` has, and the reset
input. `DOUT`, `DGRP`, `DST` and `DERR` are among what the host reads, and the encoder's commands
leave them as they are. -/
def Obligations.EndedDecoderSessionAcceptsOnlyDstart : Prop :=
  ∀ s : State, s.dec.dst ≠ .loading →
    (∀ b : Byte, exec (.dbyte b) s = .refused .sessionEnded) ∧
    exec .drun s = .refused .sessionEnded ∧
    (∃ t, exec .dstart s = .next t ∧ t.dec.dst = .loading) ∧
    (afterRst s).dec.dst = .loading ∧
    ((hostView s).dout = s.dec.dout ∧ (hostView s).s4 = s.dec.dgrp ∧
      (hostView s).s2 = dstCode s.dec.dst ∧ (hostView s).s3 = derrCode s.dec.derr) ∧
    (∀ i t, i = .estart ∨ (∃ sid, i = .epush sid) ∨ i = .efin → exec i s = .next t →
      t.dec = s.dec)

/-! ### DRUN -/

/-- R148: what `DRUN` does, without its loop. It stops at one group index g; every earlier group
exists and is the code of a symbol other than `StreamEnd`, and `DOUT` is those symbols' sids; at g
the digit string has ended, or ends inside the group, or the group is no code, or it is
`StreamEnd`, with the outcome of each. -/
def Obligations.DrunScansToFirstStop : Prop :=
  ∀ s : State, s.dec.dst = .loading →
    ∃ (g : Nat) (dout : List Sid) (dst : DecStatus) (derr : DecError)
      (dlog : List (List Sid)),
      exec .drun s = .next { s with dlog := dlog, dec := ⟨[], dout, g, dst, derr⟩ } ∧
      (let ds := digits s.cfg.wMin s.dec.inp
       dout.length = g ∧
       (∀ k, k < g → ∃ y, y ≠ Sym.streamEnd ∧
         (groupAt ds k).bind s.cfg.code.inv = some y ∧ dout[k]? = some (sidOf y)) ∧
       ((ds.length = 3 * g ∧ dst = .failed ∧ derr = .endOfDigits ∧ dlog = s.dlog) ∨
        (3 * g < ds.length ∧ ds.length < 3 * g + 3 ∧ dst = .failed ∧ derr = .invalidCode ∧
          dlog = s.dlog) ∨
        ((∃ p, groupAt ds g = some p ∧ s.cfg.code.inv p = none) ∧ dst = .failed ∧
          derr = .invalidCode ∧ dlog = s.dlog) ∨
        ((groupAt ds g).bind s.cfg.code.inv = some .streamEnd ∧ dst = .done ∧
          derr = s.dec.derr ∧ dlog = s.dlog ++ [dout])))

/-- R150: an existing group `"110"` with no terminator before it fails the session with `InvalidCode`
at that group's index, and nothing is committed; after the first terminator it has no effect. -/
def Obligations.DrunUnusedPatternIsInvalidCode : Prop :=
  ∀ (s : State) (syms : List Sym), s.dec.dst = .loading → s.cfg.code.wf = true →
    Sym.streamEnd ∉ syms →
    (∀ k y, syms[k]? = some y →
      groupAt (digits s.cfg.wMin s.dec.inp) k = some (s.cfg.code.codeOf y)) →
    (groupAt (digits s.cfg.wMin s.dec.inp) syms.length = some unusedPattern →
      exec .drun s = .next { s with
        dec := ⟨[], syms.map sidOf, syms.length, .failed, .invalidCode⟩ }) ∧
    (∀ g, syms.length < g →
      groupAt (digits s.cfg.wMin s.dec.inp) syms.length =
        some (s.cfg.code.codeOf .streamEnd) →
      groupAt (digits s.cfg.wMin s.dec.inp) g = some unusedPattern →
      exec .drun s = .next { s with
        dlog := s.dlog ++ [syms.map sidOf],
        dec := ⟨[], syms.map sidOf, syms.length, .done, s.dec.derr⟩ })

/-- R151, R152, R173: a digit string that ends with no terminator fails the session at the first
group that does not wholly exist, with `EndOfDigits` on a group boundary and with `InvalidCode`
where one or two digits remain. Nothing is committed and `DOUT` keeps what was decoded. -/
def Obligations.DrunWithoutTerminatorFails : Prop :=
  ∀ (s : State) (syms : List Sym), s.dec.dst = .loading → s.cfg.code.wf = true →
    Sym.streamEnd ∉ syms →
    (∀ k y, syms[k]? = some y →
      groupAt (digits s.cfg.wMin s.dec.inp) k = some (s.cfg.code.codeOf y)) →
    (digitLen s.cfg.wMin s.dec.inp = 3 * syms.length →
      exec .drun s = .next { s with
        dec := ⟨[], syms.map sidOf, syms.length, .failed, .endOfDigits⟩ }) ∧
    (3 * syms.length < digitLen s.cfg.wMin s.dec.inp →
      digitLen s.cfg.wMin s.dec.inp < 3 * syms.length + 3 →
      exec .drun s = .next { s with
        dec := ⟨[], syms.map sidOf, syms.length, .failed, .invalidCode⟩ })

/-- R149: `DRUN` stops at the first `StreamEnd` group and reads nothing after it. A scan that meets
symbols and then a terminator succeeds with exactly those symbols, whatever digits follow; so two
sessions whose digit strings agree up to and including that group end alike. -/
def Obligations.DrunStopsAtFirstStreamEnd : Prop :=
  ∀ (s : State) (syms : List Sym), s.dec.dst = .loading → s.cfg.code.wf = true →
    Sym.streamEnd ∉ syms →
    (∀ k y, syms[k]? = some y →
      groupAt (digits s.cfg.wMin s.dec.inp) k = some (s.cfg.code.codeOf y)) →
    groupAt (digits s.cfg.wMin s.dec.inp) syms.length =
      some (s.cfg.code.codeOf .streamEnd) →
    exec .drun s = .next { s with
      dlog := s.dlog ++ [syms.map sidOf],
      dec := ⟨[], syms.map sidOf, syms.length, .done, s.dec.derr⟩ }

/-- R149, R57: a `DRUN` whose digit strings agree up to and including a `StreamEnd` group gives the
same `DOUT`, `DGRP`, `DST` and the same new entry of `DLOG`, whatever comes after, in whatever
instance with the same `CODE`. -/
def Obligations.DrunResultIgnoresLaterDigits : Prop :=
  ∀ (s u : State) (f : Nat), s.dec.dst = .loading → u.dec.dst = .loading →
    s.cfg.code = u.cfg.code → s.cfg.code.wf = true →
    groupAt (digits s.cfg.wMin s.dec.inp) f = some (s.cfg.code.codeOf .streamEnd) →
    (digits s.cfg.wMin s.dec.inp).take (3 * f + 3) =
      (digits u.cfg.wMin u.dec.inp).take (3 * f + 3) →
    ∃ t v new, exec .drun s = .next t ∧ exec .drun u = .next v ∧
      t.dec.dout = v.dec.dout ∧ t.dec.dgrp = v.dec.dgrp ∧ t.dec.dst = v.dec.dst ∧
      t.dlog = s.dlog ++ new ∧ v.dlog = u.dlog ++ new

/-- R159: a decode does not depend on `FILLER_BIT`: with the other bit `DRUN` does the same, the
parameter itself apart. -/
def Obligations.DrunDoesNotReadFillerBit : Prop :=
  ∀ (s t : State) (b : Bool), exec .drun s = .next t →
    exec .drun { s with cfg := { s.cfg with fillerBit := b } } =
      .next { t with cfg := { t.cfg with fillerBit := b } }

/-- R159, R7: `DSTART`, one `DBYTE` per byte, `DRUN`, with room for the bytes, from any state: the
session ends with what `decode(bytes)` gives, and `DGRP = len(DOUT)`. `W_MIN` is any function of the
length: `wMin` is any function that the instance's agrees with at this length. -/
def Obligations.DecoderSessionComputesDecode : Prop :=
  ∀ (s : State) (bytes : List Byte) (wMin : Nat → Nat),
    capAllows s.cfg.capIn bytes.length = true →
    s.cfg.wMin bytes.length = wMin bytes.length →
    ∃ t, execAll (ddecode bytes) s = .next t ∧
      t.enc = s.enc ∧ t.elog = s.elog ∧ t.cfg = s.cfg ∧ t.port = s.port ∧ t.micro = s.micro ∧
      t.dec.inp = [] ∧ t.dec.dout = (decodeBytes s.cfg.code wMin bytes).dout ∧
      t.dec.dgrp = t.dec.dout.length ∧
      (match (decodeBytes s.cfg.code wMin bytes).how with
       | .success => t.dec.dst = .done ∧ t.dec.derr = .noError ∧ t.dlog = s.dlog ++ [t.dec.dout]
       | .invalidCode => t.dec.dst = .failed ∧ t.dec.derr = .invalidCode ∧ t.dlog = s.dlog
       | .endOfDigits => t.dec.dst = .failed ∧ t.dec.derr = .endOfDigits ∧ t.dlog = s.dlog)

/-- R144: the digits in terms of the input bytes: bit `i mod 8` of byte `i div 8` below `8L`, 0 from
there on; and `DLEN` is at most the larger of `W_MIN(L)` and `8L`, for every function `W_MIN`. -/
def Obligations.DigitsAreInputBits : Prop :=
  ∀ (wMin : Nat → Nat) (inp : List Byte),
    (digits wMin inp).length = digitLen wMin inp ∧
    digitLen wMin inp ≤ max (wMin inp.length) (8 * inp.length) ∧
    ∀ i, i < digitLen wMin inp →
      (digits wMin inp)[i]? = some
        (if i < 8 * inp.length then (byteAt inp (i / 8)).getLsbD (i % 8) else false)

/-- R144, R12: `bitlen(M)` in terms of the input bytes: 0 when every byte is 0, and otherwise
`8k` and the position of the highest 1 bit of the last byte that is not 0, plus one. -/
def Obligations.BitlenIsThatOfLastNonzeroByte : Prop :=
  ∀ inp : List Byte,
    ((∀ b ∈ inp, b = 0) → bitlen (le inp) = 0) ∧
    (∀ k h, k < inp.length → (∀ j, k < j → byteAt inp j = 0) →
      h < 8 → (byteAt inp k).getLsbD h = true → (∀ j, h < j → (byteAt inp k).getLsbD j = false) →
      bitlen (le inp) = 8 * k + h + 1)

/-- R155: the scan done a 24-bit block at a time, with bytes above the input read as 0, gives the
result of the scan over the digit string, for every `CODE` and every function `W_MIN`. -/
def Obligations.BlockwiseScanEqualsScan : Prop :=
  ∀ (t : CodeTable) (wMin : Nat → Nat) (inp : List Byte),
    scanBlocks t inp (digitLen wMin inp) (digitLen wMin inp / 3 + 1) 0 [] =
      scan t 0 [] (digits wMin inp)

/-! ### The data codes of the scan -/

/-- R147: the action of each of the eight groups. That a group runs by itself, in every value of
`DST`, on the running `DOUT` and `DGRP`, is the model's choice (log entry 10). -/
def Obligations.GroupCodesActOnDecoder : Prop :=
  ∀ s : State,
    exec .symInk0 s = .next { s with dec := { s.dec with
      dout := s.dec.dout ++ [0], dgrp := s.dec.dgrp + 1 } } ∧
    exec .symInk1 s = .next { s with dec := { s.dec with
      dout := s.dec.dout ++ [1], dgrp := s.dec.dgrp + 1 } } ∧
    exec .symInk2 s = .next { s with dec := { s.dec with
      dout := s.dec.dout ++ [2], dgrp := s.dec.dgrp + 1 } } ∧
    exec .symInk3 s = .next { s with dec := { s.dec with
      dout := s.dec.dout ++ [3], dgrp := s.dec.dgrp + 1 } } ∧
    exec .symInk4 s = .next { s with dec := { s.dec with
      dout := s.dec.dout ++ [4], dgrp := s.dec.dgrp + 1 } } ∧
    exec .symLineEnd s = .next { s with dec := { s.dec with
      dout := s.dec.dout ++ [5], dgrp := s.dec.dgrp + 1 } } ∧
    exec .symStreamEnd s = .next { s with
      dlog := s.dlog ++ [s.dec.dout],
      dec := { s.dec with inp := [], dst := .done } } ∧
    exec .symUnused s = .next { s with dec := { s.dec with
      inp := [], dst := .failed, derr := .invalidCode } }

/-- R147, R148, R153: a `DRUN` that ends at a group (and not at the end of the digits) is the groups'
actions one after the other, from an empty `DOUT` at group 0. The actions run by themselves are the
model's form (log entry 10). -/
def Obligations.DrunIsItsGroupsOneByOne : Prop :=
  ∀ (s t : State), exec .drun s = .next t →
    3 * t.dec.dgrp + 3 ≤ digitLen s.cfg.wMin s.dec.inp →
    execAll ((List.range (t.dec.dgrp + 1)).map fun k =>
        instrOfGroup ((groupAt (digits s.cfg.wMin s.dec.inp) k).bind s.cfg.code.inv))
      { s with dec := { s.dec with dout := [], dgrp := 0 } } = .next t

/-! ### Encodings -/

/-- R72, R74, R77, R78: decoding the word of a well-formed instruction gives the instruction, for
every instance and every operand. -/
def Obligations.DecodeOfEncodeIsTheInstruction : Prop :=
  ∀ (c : Config) (i : Instr), i.wf c = true → decode c (encode c i) = .ok i

/-- R72, R74, R77, R78: each word has one meaning: a word that decodes to an instruction is that
instruction's word, under a legal `CODE`. -/
def Obligations.EncodeOfDecodeIsTheWord : Prop :=
  ∀ (c : Config) (w : CodeWord) (i : Instr), c.code.wf = true → decode c w = .ok i →
    encode c i = w

/-- R82: every `ECMD5` word but `00000`, `01sss` and `10000` and every `DCMD10` word but
`0000000000`, `01bbbbbbbb` and `1000000000` is refused, in every state. -/
def Obligations.ReservedCommandWordsAreRefused : Prop :=
  ∀ (s : State) (rest : List HostInput), s.micro = none →
    (∀ w : BitVec 5, s.port = .ecmd w :: rest →
      w ≠ 0b00000 → w.extractLsb' 3 2 ≠ 0b01 → w ≠ 0b10000 →
      step s = .refused .reservedWord) ∧
    (∀ w : BitVec 10, s.port = .dcmd w :: rest →
      w ≠ 0b0000000000 → w.extractLsb' 8 2 ≠ 0b01 → w ≠ 0b1000000000 →
      step s = .refused .reservedWord)

/-- R77, R78: what every word of the two command formats decodes to, by the tables of their
encodings; every word that is not in a table is reserved. No word is a data code, so the host can
push neither a group nor the filler (R76, R120). -/
def Obligations.CommandWordsDecodeByTheirTables : Prop :=
  ∀ c : Config,
    (∀ w : BitVec 5, decode c (.ecmd w) =
      if w = 0b00000 then .ok .estart
      else if w.extractLsb' 3 2 = 0b01 then .ok (.epush (w.extractLsb' 0 3))
      else if w = 0b10000 then .ok .efin
      else .error (.reservedEcmd w)) ∧
    (∀ w : BitVec 10, decode c (.dcmd w) =
      if w = 0b0000000000 then .ok .dstart
      else if w.extractLsb' 8 2 = 0b01 then .ok (.dbyte (w.extractLsb' 0 8))
      else if w = 0b1000000000 then .ok .drun
      else .error (.reservedDcmd w))

/-- R77, R78: words written out from the spec's encodings decode to the instructions they stand
for. -/
def Obligations.SomeCommandWordsDecode : Prop :=
  ∀ c : Config,
    decode c (.ecmd 0b00000) = .ok .estart ∧
    decode c (.ecmd 0b01101) = .ok (.epush 5) ∧
    decode c (.ecmd 0b01111) = .ok (.epush 7) ∧
    decode c (.ecmd 0b10000) = .ok .efin ∧
    decode c (.dcmd 0b0000000000) = .ok .dstart ∧
    decode c (.dcmd 0b0101001000) = .ok (.dbyte 0x48) ∧
    decode c (.dcmd 0b1000000000) = .ok .drun

/-- R73, R72: under a legal `CODE`, `INV` is its exact inverse: defined on the seven codes, none on
`"110"`, and nothing else. -/
def Obligations.InvIsExactInverseOfCode : Prop :=
  ∀ t : CodeTable, t.wf = true →
    (∀ y, t.inv (t.codeOf y) = some y) ∧
    (∀ p y, t.inv p = some y → t.codeOf y = p) ∧
    (∀ p, t.inv p = none ↔ p = unusedPattern)

/-! ### The step -/

/-- R59, R62: a step takes the first word the host presents and does what its instruction does, in
the state with that word taken; the same for a data code at the inner code input; and the reset
input is one step. The port as a list and the inner code input are the model's choice (log entries
1, 7 and 10). -/
def Obligations.StepRunsDecodedInstruction : Prop :=
  ∀ (s : State) (i : Instr),
    (∀ w rest, s.micro = none → s.port = .ecmd w :: rest → decode s.cfg (.ecmd w) = .ok i →
      step s = exec i { s with port := rest }) ∧
    (∀ w rest, s.micro = none → s.port = .dcmd w :: rest → decode s.cfg (.dcmd w) = .ok i →
      step s = exec i { s with port := rest }) ∧
    (∀ v, s.micro = some (.sym3 v) → decode s.cfg (.sym3 v) = .ok i →
      step s = exec i { s with micro := none }) ∧
    (∀ f, s.micro = some (.fill1 f) → decode s.cfg (.fill1 f) = .ok i →
      step s = exec i { s with micro := none }) ∧
    (∀ rest, s.micro = none → s.port = .rst :: rest →
      step s = .next (afterRst { s with port := rest }))

/-- R176: with nothing presented nothing changes. That the model then takes a step that changes
nothing is its choice (log entry 2). -/
def Obligations.StepWithoutInputChangesNothing : Prop :=
  ∀ s : State, s.micro = none → s.port = [] → step s = .next s

/-- R59, R60, R77, R78: a program of commands presented on the channels runs as its instructions one
after the other: as many steps as it has commands give the state its instructions give, with the
program's words taken and whatever the host presents after them still waiting. That the host's
inputs stand in one list is the model's choice (log entry 1). -/
def Obligations.PresentedProgramRunsItsInstructions : Prop :=
  ∀ (prog : List Instr) (words rest : List HostInput) (s t : State),
    prog.map inputOf = words.map some → s.micro = none → s.port = words ++ rest →
    (runSteps prog.length s = .next t ↔ execAll prog { s with port := rest } = .next t)

/-! ### Invariants -/

/-- R33, R45: the invariants hold right after power-on, for every legal choice of the parameters.
`State.reset` is one of these states: `CODE`, `FILLER_BIT` and `W_MIN` are free values in it, and legal
(log entries 4, 5 and 6). -/
def Obligations.PowerOnMeetsInvariants : Prop :=
  (∀ c : Config, c.wf = true → Inv (State.powerOn c)) ∧
  (∃ c : Config, c.wf = true ∧ State.reset = State.powerOn c) ∧ Inv State.reset

/-- R33, R45, R30, R63: every step keeps the invariants of both units, of the logs and of the
parameters. -/
def Obligations.StepKeepsInvariants : Prop :=
  ∀ s t : State, Inv s → step s = .next t → Inv t

/-- R125: where the invariants hold no append leaves the accumulator, so no step faults. -/
def Obligations.StepNeverFaultsUnderInvariants : Prop :=
  ∀ s : State, Inv s → StepSafe s

/-- R181, R23, R42: the instructions of one unit leave the other unit, its log, the parameters and
the inputs unchanged. That `FILLER` and the groups run as instructions of a unit is the model's
choice (log entry 10). -/
def Obligations.EachUnitLeavesTheOtherAlone : Prop :=
  ∀ (i : Instr) (s t : State), exec i s = .next t →
    (t.cfg = s.cfg ∧ t.port = s.port ∧ t.micro = s.micro) ∧
    (i = .estart ∨ (∃ sid, i = .epush sid) ∨ i = .efin ∨ i = .filler →
      t.dec = s.dec ∧ t.dlog = s.dlog) ∧
    (¬(i = .estart ∨ (∃ sid, i = .epush sid) ∨ i = .efin ∨ i = .filler) →
      t.enc = s.enc ∧ t.elog = s.elog)

/-- R60: an encoder command and a decoder command give the same final state in either order. -/
def Obligations.CommandsOfTheTwoUnitsCommute : Prop :=
  ∀ (i j : Instr) (s : State),
    (i = .estart ∨ (∃ sid, i = .epush sid) ∨ i = .efin) →
    (j = .dstart ∨ (∃ b, j = .dbyte b) ∨ j = .drun) →
    ∀ u, (execAll [i, j] s = .next u ↔ execAll [j, i] s = .next u)

/-- R31, R44, R61: an `EFIN` that answers adds exactly one entry at the end of `ELOG` and nothing
else adds to it; a scan that ends in success adds exactly its `DOUT` at the end of `DLOG` and nothing
else adds to it. That `StreamEnd`'s group run by itself is such a scan is the model's choice (log
entry 10): R42 names `DRUN` alone. -/
def Obligations.OnlyEfinAndScansCommit : Prop :=
  ∀ (i : Instr) (s t : State), exec i s = .next t →
    (i = .efin → t.enc.est = .done ∧ ∃ a, t.elog = s.elog ++ [a]) ∧
    (i ≠ .efin → t.elog = s.elog) ∧
    ((i = .drun ∨ i = .symStreamEnd) → t.dec.dst = .done → t.dlog = s.dlog ++ [t.dec.dout]) ∧
    (¬((i = .drun ∨ i = .symStreamEnd) ∧ t.dec.dst = .done) → t.dlog = s.dlog)

/-- R31, R44, R191, R28: no step, the reset input among them, changes an entry of a log or a
parameter. -/
def Obligations.StepKeepsLogsAndParameters : Prop :=
  ∀ s t : State, step s = .next t →
    s.elog <+: t.elog ∧ s.dlog <+: t.dlog ∧ t.cfg = s.cfg

/-- R27, R170, R171: the encoder enters `FAILED` by `EPUSH 7` only. R170, R172, R173: the decoder
enters it by a scan only, with the error code of its cause. That the group `110` run by itself is
such a cause is the model's choice (log entry 10): R170 and R172 name `DRUN` alone. -/
def Obligations.OnlyNamedCausesEnterFailed : Prop :=
  ∀ (i : Instr) (s t : State), exec i s = .next t →
    (s.enc.est ≠ .failed → t.enc.est = .failed → i = .epush 7 ∧ t.enc.eerr = .unknownSymbol) ∧
    (s.dec.dst ≠ .failed → t.dec.dst = .failed →
      (i = .drun ∧ (t.dec.derr = .invalidCode ∨ t.dec.derr = .endOfDigits)) ∨
      (i = .symUnused ∧ t.dec.derr = .invalidCode))

/-! ### Whole encoder sessions -/

/-- R124: the count and the number of flushed blocks after `n >= 1` pushes from an empty session with
room for them. -/
def Obligations.PushesCountAndFlushInEights : Prop :=
  ∀ (s : State) (syms : List Sym), syms ≠ [] →
    capAllows s.cfg.capOut (3 * ((syms.length + 7) / 8 - 1)) = true →
    ∃ t, execAll (.estart :: pushAll syms) s = .next t ∧
      t.enc.cnt.toNat = (3 * syms.length - 1) % 24 + 1 ∧
      t.enc.out.length = 3 * ((syms.length + 7) / 8 - 1) ∧
      t.enc.est = .active

/-- R127, R53, R24: after the pushes of a session every stream bit is held at its stream index: bit i
is bit `i mod 8` of byte `i div 8` of `OUT` where that byte exists, and `ACC[i - 8·len(OUT)]`
otherwise; `8·len(OUT) + CNT` is the number of bits. -/
def Obligations.PushedBitsStandAtTheirStreamIndex : Prop :=
  ∀ (s t : State) (syms : List Sym), execAll (.estart :: pushAll syms) s = .next t →
    8 * t.enc.out.length + t.enc.cnt.toNat = 3 * syms.length ∧
    ∀ i, i < 3 * syms.length →
      (symbolBits s.cfg syms)[i]? = some
        (if i < 8 * t.enc.out.length then (byteAt t.enc.out (i / 8)).getLsbD (i % 8)
         else t.enc.acc.getLsbD (i - 8 * t.enc.out.length))

/-- R110: a session that pushes known symbols and finalizes commits exactly `encode(syms)`, where
`OUT` has room for it, and leaves everything else as it was. -/
def Obligations.EncoderSessionCommitsEncode : Prop :=
  ∀ (s : State) (syms : List Sym),
    capAllows s.cfg.capOut (3 * ((syms.length + 7) / 8)) = true →
    execAll (.estart :: pushAll syms ++ [.efin]) s = .next { s with
      elog := s.elog ++ [encodeArtifact s.cfg syms],
      enc := ⟨0, 0, [], .done, .noError⟩ }

/-- R110, R171: a session that pushes an unknown symbol fails there, commits nothing, and the
commands that would go on with it have no step. -/
def Obligations.EncoderSessionFailsAtUnknownSymbol : Prop :=
  ∀ (s : State) (syms : List Sym) (i : Instr),
    capAllows s.cfg.capOut (3 * ((syms.length + 7) / 8)) = true →
    execAll (.estart :: pushAll syms ++ [.epush 7]) s = .next { s with
      enc := ⟨0, 0, [], .failed, .unknownSymbol⟩ } ∧
    ((∃ sid, i = .epush sid) ∨ i = .efin →
      execAll (.estart :: pushAll syms ++ [.epush 7, i]) s = .refused .sessionEnded)

/-- R110, R128: the artifact of n symbols has `3·ceil(n/8)` bytes, a whole number of blocks. -/
def Obligations.ArtifactLengthIsWholeBlocks : Prop :=
  ∀ (c : Config) (syms : List Sym),
    (encodeArtifact c syms).length = 3 * ((syms.length + 7) / 8)

/-- R53, R129: the bit at stream index i of the padded stream is bit `i mod 8` of byte `i div 8` of
the artifact, and bit i of the number the decoder reads, in every block. -/
def Obligations.ArtifactHoldsStreamInOrder : Prop :=
  ∀ (c : Config) (syms : List Sym) (i : Nat),
    i < (paddedBits c (symbolBits c syms)).length →
    (paddedBits c (symbolBits c syms))[i]? =
      some ((byteAt (encodeArtifact c syms) (i / 8)).getLsbD (i % 8)) ∧
    (paddedBits c (symbolBits c syms))[i]? = some ((le (encodeArtifact c syms)).testBit i)

/-! ### The round trip -/

/-- R157: decoding the artifact of a symbol sequence gives back the symbols before its first
`StreamEnd`, under the exact condition that the digit string reaches the end of that group. -/
def Obligations.RoundTripReturnsSymbols : Prop :=
  ∀ (s : State) (before after : List Sym), s.dec.dst = .loading → s.cfg.wf = true →
    Sym.streamEnd ∉ before →
    s.dec.inp = encodeArtifact s.cfg (before ++ .streamEnd :: after) →
    3 * before.length + 3 ≤ digitLen s.cfg.wMin s.dec.inp →
    exec .drun s = .next { s with
      dlog := s.dlog ++ [before.map sidOf],
      dec := ⟨[], before.map sidOf, before.length, .done, s.dec.derr⟩ }

/-- R157: where the digit string is too short for the first `StreamEnd` group the decode fails, and
what it decoded is a part of what was pushed: it never succeeds with a wrong grid. -/
def Obligations.RoundTripNeverReturnsWrongSymbols : Prop :=
  ∀ (s : State) (before after : List Sym), s.dec.dst = .loading → s.cfg.wf = true →
    Sym.streamEnd ∉ before →
    s.dec.inp = encodeArtifact s.cfg (before ++ .streamEnd :: after) →
    digitLen s.cfg.wMin s.dec.inp < 3 * before.length + 3 →
    exec .drun s = .next { s with
      dec := ⟨[], (before.take (digitLen s.cfg.wMin s.dec.inp / 3)).map sidOf,
        digitLen s.cfg.wMin s.dec.inp / 3, .failed,
        if digitLen s.cfg.wMin s.dec.inp % 3 = 0 then .endOfDigits else .invalidCode⟩ }

/-- R157 (a), (b): the condition of the round trip holds where some bit of the padded stream at or
above the terminator's last bit is 1, in particular where the code of `StreamEnd` ends in 1, and
where `W_MIN` reaches it, in particular where it is `8L` for the artifact's length. -/
def Obligations.RoundTripConditionSuffices : Prop :=
  ∀ (c : Config) (before after : List Sym),
    (∀ i, 3 * before.length + 2 ≤ i →
      (paddedBits c (symbolBits c (before ++ .streamEnd :: after)))[i]? = some true →
      3 * before.length + 3 ≤
        digitLen c.wMin (encodeArtifact c (before ++ .streamEnd :: after))) ∧
    (c.code.streamEnd.getLsbD 2 = true →
      3 * before.length + 3 ≤
        digitLen c.wMin (encodeArtifact c (before ++ .streamEnd :: after))) ∧
    (∀ l, l = (encodeArtifact c (before ++ .streamEnd :: after)).length →
      (3 * before.length + 3 ≤ c.wMin l ∨ c.wMin l = 8 * l) →
      3 * before.length + 3 ≤
        digitLen c.wMin (encodeArtifact c (before ++ .streamEnd :: after)))

/-- R157, R14, R154 with S2 of 95_test_vectors.md: a well-formed grid, encoded by one session and its
artifact decoded by another, comes back row for row: `DOUT` is its rows each followed by a
`LineEnd`, `DGRP = R·(C+1)`, and the text is its lines each followed by a line break. Under a
`CODE` whose `StreamEnd` ends in 1 there is no further condition. -/
def Obligations.GridRoundTripThroughBothUnits : Prop :=
  ∀ (s : State) (cols : Nat) (rows : List (List Sym)) (chars : TextChars),
    s.cfg.wf = true → gridWf cols rows = true → s.cfg.code.streamEnd.getLsbD 2 = true →
    capAllows s.cfg.capOut (3 * ((rows.length * (cols + 1) + 8) / 8)) = true →
    capAllows s.cfg.capIn (3 * ((rows.length * (cols + 1) + 8) / 8)) = true →
    ∃ t, execAll (egrid (rows.map (·.map sidOf)) ++
        ddecode (encodeArtifact s.cfg (gridStream rows))) s = .next t ∧
      t.elog = s.elog ++ [encodeArtifact s.cfg (gridStream rows)] ∧
      t.enc = ⟨0, 0, [], .done, .noError⟩ ∧
      t.dec = ⟨[], (gridBody rows).map sidOf, rows.length * (cols + 1), .done, .noError⟩ ∧
      t.dlog = s.dlog ++ [(gridBody rows).map sidOf] ∧
      text chars t.dec.dout = gridText chars rows

/-- R87: the front end gives `INK_CHAR(k)` the sid k, the row end 5, the stream end 6, and any
character that is no ink character 7, also `NL_CHAR`; and `text` gives each ink's sid its character
back. -/
def Obligations.FrontEndInvertsInkCharacters : Prop :=
  ∀ chars : TextChars, chars.wf = true →
    (frontEnd chars (.char chars.ink0) = 0 ∧ frontEnd chars (.char chars.ink1) = 1 ∧
      frontEnd chars (.char chars.ink2) = 2 ∧ frontEnd chars (.char chars.ink3) = 3 ∧
      frontEnd chars (.char chars.ink4) = 4) ∧
    (∀ y : Sym, isInk y = true → ∃ c, text chars [sidOf y] = [c] ∧
      frontEnd chars (.char c) = sidOf y) ∧
    (∀ c, c ∉ [chars.ink0, chars.ink1, chars.ink2, chars.ink3, chars.ink4] →
      frontEnd chars (.char c) = 7) ∧
    frontEnd chars (.char chars.newline) = 7 ∧
    frontEnd chars .rowEnd = 5 ∧ frontEnd chars .streamEnd = 6

/-! ### What the host sees -/

/-- R23, R42, R60, R202: a push of a known symbol and the supply of a byte change nothing the host
can read: no staged byte is visible before the commit. -/
def Obligations.PushesAndLoadsAreInvisible : Prop :=
  ∀ s t : State,
    (∀ y, exec (.epush (sidOf y)) s = .next t → hostView t = hostView s) ∧
    (∀ b, exec (.dbyte b) s = .next t → hostView t = hostView s)

/-- R88: the codes of the four status registers, as the host reads them; the values the table marks
"never" are read in no state. -/
def Obligations.StatusOutputsCarryTheirCodes : Prop :=
  ∀ s : State,
    (s.enc.est = .active → (hostView s).s0 = 0b00) ∧ (s.enc.est = .done → (hostView s).s0 = 0b01) ∧
    (s.enc.est = .failed → (hostView s).s0 = 0b10) ∧ (hostView s).s0 ≠ 0b11 ∧
    (s.enc.eerr = .noError → (hostView s).s1 = 0b00) ∧
    (s.enc.eerr = .unknownSymbol → (hostView s).s1 = 0b01) ∧
    (hostView s).s1 ≠ 0b10 ∧ (hostView s).s1 ≠ 0b11 ∧
    (s.dec.dst = .loading → (hostView s).s2 = 0b00) ∧ (s.dec.dst = .done → (hostView s).s2 = 0b01) ∧
    (s.dec.dst = .failed → (hostView s).s2 = 0b10) ∧ (hostView s).s2 ≠ 0b11 ∧
    (s.dec.derr = .noError → (hostView s).s3 = 0b00) ∧
    (s.dec.derr = .invalidCode → (hostView s).s3 = 0b01) ∧
    (s.dec.derr = .endOfDigits → (hostView s).s3 = 0b10) ∧ (hostView s).s3 ≠ 0b11
end

