-- ==== Sys2Proof/Laws/Bits.lean ====
section
/-! SUPPORT. The laws of bit and byte order: what a written bit reads as, and what the little-endian
value and the packing of a bit string hold at each index. -/

namespace Sys2Proof.Machine

/-! ### Writing bits of the accumulator -/

theorem getLsbD_setBit (a : Acc) (p : Nat) (b : Bool) (j : Nat) (hp : p < 24) :
    (setBit a p b).getLsbD j = if j = p then b else a.getLsbD j := by
  have h1 : (1#24 <<< p).getLsbD j = decide (j = p) := by
    rw [BitVec.getLsbD_shiftLeft, BitVec.getLsbD_one]
    by_cases h : j = p
    · subst h; simp [hp]
    · have h0 : ¬ (j - p = 0 ∧ p ≤ j) := by omega
      by_cases h2 : j < p <;> simp [h, h2]
      omega
  unfold setBit
  by_cases h : j = p
  · subst h
    cases b <;> simp only [Bool.false_eq_true, if_true, if_false, BitVec.getLsbD_or,
      BitVec.getLsbD_and, BitVec.getLsbD_not, h1] <;> simp
  · rw [if_neg h]
    cases b <;> simp only [Bool.false_eq_true, if_true, if_false, BitVec.getLsbD_or,
      BitVec.getLsbD_and, BitVec.getLsbD_not, h1, h, decide_false, Bool.or_false, Bool.not_false,
      Bool.and_true]
    by_cases h24 : j < 24
    · simp [h24]
    · simp [BitVec.getLsbD_of_ge a j (by omega)]

/-- The accumulator after the writes of an append: the written bits at their positions, every other
bit as before. -/
theorem getLsbD_writeBits (bits : List Bool) (a : Acc) (p j : Nat)
    (hp : p + bits.length ≤ 24) :
    (writeBits a p bits).getLsbD j =
      if p ≤ j ∧ j < p + bits.length then bits.getD (j - p) false else a.getLsbD j := by
  induction bits generalizing a p with
  | nil => simp only [writeBits, List.length_nil]; rw [if_neg (by omega)]
  | cons b bs ih =>
    simp only [List.length_cons] at hp ⊢
    rw [writeBits, ih _ _ (by omega), getLsbD_setBit _ _ _ _ (by omega)]
    by_cases h : j = p
    · subst h; rw [if_neg (by omega), if_pos rfl, if_pos (by omega)]; simp
    · by_cases h2 : p + 1 ≤ j ∧ j < p + 1 + bs.length
      · rw [if_pos h2, if_pos (by omega)]
        obtain ⟨k, hk⟩ : ∃ k, j - p = k + 1 := ⟨j - p - 1, by omega⟩
        rw [hk, show j - (p + 1) = k by omega]; simp
      · rw [if_neg h2, if_neg h, if_neg (by omega)]

/-! ### Values of bit strings -/

theorem bitsVal_lt (bs : List Bool) : bitsVal bs < 2 ^ bs.length := by
  induction bs with
  | nil => simp [bitsVal]
  | cons b bs ih =>
    have : b.toNat ≤ 1 := b.toNat_le
    simp only [bitsVal, List.length_cons, Nat.pow_succ]; omega

theorem testBit_bitsVal (bs : List Bool) (i : Nat) :
    (bitsVal bs).testBit i = bs.getD i false := by
  induction bs generalizing i with
  | nil => simp [bitsVal]
  | cons b bs ih =>
    cases i with
    | zero => cases b <;> simp [bitsVal]
    | succ i =>
      have h : bitsVal (b :: bs) / 2 = bitsVal bs := by
        have := b.toNat_le
        simp only [bitsVal]; omega
      rw [Nat.testBit_succ, h, ih]
      simp

theorem getLsbD_groupVec (c0 c1 c2 : Bool) :
    (groupVec c0 c1 c2).getLsbD 0 = c0 ∧ (groupVec c0 c1 c2).getLsbD 1 = c1 ∧
      (groupVec c0 c1 c2).getLsbD 2 = c2 := by
  revert c0 c1 c2; decide

/-- A group is the vector whose bits in stream order it is (R9 (c)). -/
theorem groupVec_codeBits (v : Sym3) :
    groupVec (v.getLsbD 0) (v.getLsbD 1) (v.getLsbD 2) = v := by
  revert v; decide

/-! ### The little-endian value -/

theorem le_append (as bs : List Byte) : le (as ++ bs) = le as + 256 ^ as.length * le bs := by
  induction as with
  | nil => simp [le]
  | cons a as ih => simp only [List.cons_append, le, ih, List.length_cons, Nat.pow_succ]; ring

theorem le_lt (bs : List Byte) : le bs < 2 ^ (8 * bs.length) := by
  induction bs with
  | nil => simp [le]
  | cons b bs ih =>
    have h : b.toNat < 256 := b.isLt
    have e : 2 ^ (8 * (bs.length + 1)) = 256 * 2 ^ (8 * bs.length) := by ring
    simp only [le, List.length_cons, e]
    omega

/-- Bit j of byte k is bit `8k + j` of the little-endian value (R53). -/
theorem testBit_le (bs : List Byte) (i : Nat) :
    (le bs).testBit i = (byteAt bs (i / 8)).getLsbD (i % 8) := by
  induction bs generalizing i with
  | nil => simp [le, byteAt]
  | cons b bs ih =>
    rw [le, show b.toNat + 256 * le bs = 2 ^ 8 * le bs + b.toNat by ring,
      Nat.testBit_two_pow_mul_add _ b.isLt]
    split
    · rw [show i / 8 = 0 by omega, Nat.mod_eq_of_lt (by omega)]
      simp [byteAt, BitVec.getLsbD]
    · obtain ⟨k, rfl⟩ : ∃ k, i = k + 8 := ⟨i - 8, by omega⟩
      rw [Nat.add_sub_cancel, ih, Nat.add_div_right _ (by norm_num), Nat.add_mod_right]
      simp [byteAt]

/-- `bitlen` bounds exactly the numbers below a power of two (R12). -/
theorem bitlen_le_iff (m n : Nat) : bitlen m ≤ n ↔ m < 2 ^ n := by
  unfold bitlen
  split
  · subst m; simp
  · rename_i h
    rw [Nat.add_one_le_iff, Nat.log2_lt h]

theorem lt_bitlen_of_testBit {m i : Nat} (h : m.testBit i = true) : i < bitlen m := by
  by_contra hc
  have : m < 2 ^ i := (bitlen_le_iff m i).1 (by omega)
  rw [Nat.testBit_lt_two_pow this] at h
  cases h

theorem testBit_eq_false_of_bitlen_le {m i : Nat} (h : bitlen m ≤ i) : m.testBit i = false :=
  Nat.testBit_lt_two_pow ((bitlen_le_iff m i).1 h)

/-! ### Bytes of a number, and packing -/

@[simp] theorem length_leBytes (n v : Nat) : (leBytes n v).length = n := by
  induction n generalizing v with
  | zero => rfl
  | succ n ih => simp [leBytes, ih]

theorem le_leBytes (n v : Nat) : le (leBytes n v) = v % 256 ^ n := by
  induction n generalizing v with
  | zero => simp [leBytes, le, Nat.mod_one]
  | succ n ih =>
    rw [leBytes, le, ih, BitVec.toNat_ofNat, show 256 ^ (n + 1) = 256 * 256 ^ n by ring,
      Nat.mod_mul]

/-- The three bytes of a flush (R52, R132). -/
theorem leBytes_acc (a : Acc) :
    leBytes 3 a.toNat = [a.extractLsb' 0 8, a.extractLsb' 8 8, a.extractLsb' 16 8] := by
  have h0 : BitVec.ofNat 8 a.toNat = a.extractLsb' 0 8 := by
    apply BitVec.eq_of_toNat_eq; simp
  have h1 : BitVec.ofNat 8 (a.toNat / 256) = a.extractLsb' 8 8 := by
    apply BitVec.eq_of_toNat_eq; simp [Nat.shiftRight_eq_div_pow]
  have h2 : BitVec.ofNat 8 (a.toNat / 256 / 256) = a.extractLsb' 16 8 := by
    apply BitVec.eq_of_toNat_eq; simp [Nat.shiftRight_eq_div_pow, Nat.div_div_eq_div_mul]
  simp only [leBytes, h0, h1, h2]

/-- A string that packs to no byte by the last equation of `pack` has fewer than 8 bits. -/
theorem length_lt_eight (l : List Bool)
    (h : ∀ b0 b1 b2 b3 b4 b5 b6 b7 rest,
      l = b0 :: b1 :: b2 :: b3 :: b4 :: b5 :: b6 :: b7 :: rest → False) : l.length < 8 := by
  match l with
  | [] | [_] | [_, _] | [_, _, _] | [_, _, _, _] | [_, _, _, _, _] | [_, _, _, _, _, _]
  | [_, _, _, _, _, _, _] => simp
  | b0 :: b1 :: b2 :: b3 :: b4 :: b5 :: b6 :: b7 :: rest =>
    exact (h b0 b1 b2 b3 b4 b5 b6 b7 rest rfl).elim

theorem pack_short (l : List Bool) (h : l.length < 8) : pack l = [] := by
  match l, h with
  | [], _ | [_], _ | [_, _], _ | [_, _, _], _ | [_, _, _, _], _ | [_, _, _, _, _], _
  | [_, _, _, _, _, _], _ | [_, _, _, _, _, _, _], _ => rfl

theorem length_pack (bits : List Bool) : (pack bits).length = bits.length / 8 := by
  induction bits using pack.induct with
  | case1 b0 b1 b2 b3 b4 b5 b6 b7 rest ih => simp only [pack, List.length_cons, ih]; omega
  | case2 l h =>
    have h8 := length_lt_eight l h
    rw [pack_short l h8, List.length_nil, Nat.div_eq_of_lt h8]

theorem pack_append (xs ys : List Bool) (h : xs.length % 8 = 0) :
    pack (xs ++ ys) = pack xs ++ pack ys := by
  induction xs using pack.induct with
  | case1 b0 b1 b2 b3 b4 b5 b6 b7 rest ih =>
    simp only [List.length_cons] at h
    simp only [List.cons_append, pack, ih (by omega)]
  | case2 l hl =>
    have h8 := length_lt_eight l hl
    have h0 : l = [] := List.length_eq_zero_iff.1 (by omega)
    subst h0; rfl

/-- Bit i of the number a packed bit string stands for is bit i of the string (R12, R53). -/
theorem testBit_le_pack (bits : List Bool) (h : bits.length % 8 = 0) (i : Nat) :
    (le (pack bits)).testBit i = bits.getD i false := by
  induction bits using pack.induct generalizing i with
  | case1 b0 b1 b2 b3 b4 b5 b6 b7 rest ih =>
    simp only [List.length_cons] at h
    have hlt : bitsVal [b0, b1, b2, b3, b4, b5, b6, b7] < 2 ^ 8 := bitsVal_lt _
    have hs : b0 :: b1 :: b2 :: b3 :: b4 :: b5 :: b6 :: b7 :: rest =
        [b0, b1, b2, b3, b4, b5, b6, b7] ++ rest := rfl
    rw [pack, le, BitVec.toNat_ofNat, Nat.mod_eq_of_lt hlt, hs, Nat.add_comm,
      show (256 : Nat) = 2 ^ 8 from rfl, Nat.testBit_two_pow_mul_add _ hlt]
    by_cases h8 : i < 8
    · rw [if_pos h8, testBit_bitsVal, List.getD_append _ _ _ _ (by simpa using h8)]
    · rw [if_neg h8, ih (by omega), List.getD_append_right _ _ _ _ (by simp; omega)]
      rfl
  | case2 l hl =>
    have h8 := length_lt_eight l hl
    have h0 : l = [] := List.length_eq_zero_iff.1 (by omega)
    subst h0
    simp [pack, le]

end Sys2Proof.Machine
end

