-- ==== Sys2Proof/Laws/State.lean ====
section
/-! SUPPORT. What each update of the state leaves in each of its fields: one lemma per field per update. -/

namespace Sys2Proof.Machine

/-! ### The starts of a session and the reset input -/

@[simp] theorem openEnc_enc (s : State) : (openEnc s).enc = ⟨0, 0, [], .active, .noError⟩ := rfl
@[simp] theorem openEnc_dec (s : State) : (openEnc s).dec = s.dec := rfl
@[simp] theorem openEnc_elog (s : State) : (openEnc s).elog = s.elog := rfl
@[simp] theorem openEnc_dlog (s : State) : (openEnc s).dlog = s.dlog := rfl
@[simp] theorem openEnc_cfg (s : State) : (openEnc s).cfg = s.cfg := rfl
@[simp] theorem openEnc_port (s : State) : (openEnc s).port = s.port := rfl
@[simp] theorem openEnc_micro (s : State) : (openEnc s).micro = s.micro := rfl

@[simp] theorem openDec_enc (s : State) : (openDec s).enc = s.enc := rfl
@[simp] theorem openDec_dec (s : State) : (openDec s).dec = ⟨[], [], 0, .loading, .noError⟩ := rfl
@[simp] theorem openDec_elog (s : State) : (openDec s).elog = s.elog := rfl
@[simp] theorem openDec_dlog (s : State) : (openDec s).dlog = s.dlog := rfl
@[simp] theorem openDec_cfg (s : State) : (openDec s).cfg = s.cfg := rfl
@[simp] theorem openDec_port (s : State) : (openDec s).port = s.port := rfl
@[simp] theorem openDec_micro (s : State) : (openDec s).micro = s.micro := rfl

@[simp] theorem afterRst_enc (s : State) : (afterRst s).enc = ⟨0, 0, [], .active, .noError⟩ := rfl
@[simp] theorem afterRst_dec (s : State) : (afterRst s).dec = ⟨[], [], 0, .loading, .noError⟩ := rfl
@[simp] theorem afterRst_elog (s : State) : (afterRst s).elog = s.elog := rfl
@[simp] theorem afterRst_dlog (s : State) : (afterRst s).dlog = s.dlog := rfl
@[simp] theorem afterRst_cfg (s : State) : (afterRst s).cfg = s.cfg := rfl
@[simp] theorem afterRst_port (s : State) : (afterRst s).port = s.port := rfl
@[simp] theorem afterRst_micro (s : State) : (afterRst s).micro = s.micro := rfl

/-! ### Failure entry -/

@[simp] theorem raise_unknownSymbol_enc (s : State) : (raise .unknownSymbol s).enc = ⟨0, 0, [], .failed, .unknownSymbol⟩ := rfl
@[simp] theorem raise_unknownSymbol_dec (s : State) : (raise .unknownSymbol s).dec = s.dec := rfl
@[simp] theorem raise_unknownSymbol_elog (s : State) : (raise .unknownSymbol s).elog = s.elog := rfl
@[simp] theorem raise_unknownSymbol_dlog (s : State) : (raise .unknownSymbol s).dlog = s.dlog := rfl
@[simp] theorem raise_unknownSymbol_cfg (s : State) : (raise .unknownSymbol s).cfg = s.cfg := rfl
@[simp] theorem raise_unknownSymbol_port (s : State) : (raise .unknownSymbol s).port = s.port := rfl
@[simp] theorem raise_unknownSymbol_micro (s : State) : (raise .unknownSymbol s).micro = s.micro := rfl

@[simp] theorem raise_invalidCode_enc (s : State) : (raise .invalidCode s).enc = s.enc := rfl
@[simp] theorem raise_invalidCode_dec (s : State) : (raise .invalidCode s).dec = { s.dec with inp := [], dst := .failed, derr := .invalidCode } := rfl
@[simp] theorem raise_invalidCode_elog (s : State) : (raise .invalidCode s).elog = s.elog := rfl
@[simp] theorem raise_invalidCode_dlog (s : State) : (raise .invalidCode s).dlog = s.dlog := rfl
@[simp] theorem raise_invalidCode_cfg (s : State) : (raise .invalidCode s).cfg = s.cfg := rfl
@[simp] theorem raise_invalidCode_port (s : State) : (raise .invalidCode s).port = s.port := rfl
@[simp] theorem raise_invalidCode_micro (s : State) : (raise .invalidCode s).micro = s.micro := rfl

@[simp] theorem raise_endOfDigits_enc (s : State) : (raise .endOfDigits s).enc = s.enc := rfl
@[simp] theorem raise_endOfDigits_dec (s : State) : (raise .endOfDigits s).dec = { s.dec with inp := [], dst := .failed, derr := .endOfDigits } := rfl
@[simp] theorem raise_endOfDigits_elog (s : State) : (raise .endOfDigits s).elog = s.elog := rfl
@[simp] theorem raise_endOfDigits_dlog (s : State) : (raise .endOfDigits s).dlog = s.dlog := rfl
@[simp] theorem raise_endOfDigits_cfg (s : State) : (raise .endOfDigits s).cfg = s.cfg := rfl
@[simp] theorem raise_endOfDigits_port (s : State) : (raise .endOfDigits s).port = s.port := rfl
@[simp] theorem raise_endOfDigits_micro (s : State) : (raise .endOfDigits s).micro = s.micro := rfl

/-! ### The commits and the decoder's updates -/

@[simp] theorem commitArtifact_enc (s : State) : (commitArtifact s).enc = ⟨0, 0, [], .done, s.enc.eerr⟩ := rfl
@[simp] theorem commitArtifact_dec (s : State) : (commitArtifact s).dec = s.dec := rfl
@[simp] theorem commitArtifact_elog (s : State) : (commitArtifact s).elog = s.elog ++ [s.enc.out] := rfl
@[simp] theorem commitArtifact_dlog (s : State) : (commitArtifact s).dlog = s.dlog := rfl
@[simp] theorem commitArtifact_cfg (s : State) : (commitArtifact s).cfg = s.cfg := rfl
@[simp] theorem commitArtifact_port (s : State) : (commitArtifact s).port = s.port := rfl
@[simp] theorem commitArtifact_micro (s : State) : (commitArtifact s).micro = s.micro := rfl

@[simp] theorem loadByte_enc (b : Byte) (s : State) : (loadByte b s).enc = s.enc := rfl
@[simp] theorem loadByte_dec (b : Byte) (s : State) : (loadByte b s).dec = { s.dec with inp := s.dec.inp ++ [b] } := rfl
@[simp] theorem loadByte_elog (b : Byte) (s : State) : (loadByte b s).elog = s.elog := rfl
@[simp] theorem loadByte_dlog (b : Byte) (s : State) : (loadByte b s).dlog = s.dlog := rfl
@[simp] theorem loadByte_cfg (b : Byte) (s : State) : (loadByte b s).cfg = s.cfg := rfl
@[simp] theorem loadByte_port (b : Byte) (s : State) : (loadByte b s).port = s.port := rfl
@[simp] theorem loadByte_micro (b : Byte) (s : State) : (loadByte b s).micro = s.micro := rfl

@[simp] theorem emitSid_enc (sid : Sid) (s : State) : (emitSid sid s).enc = s.enc := rfl
@[simp] theorem emitSid_dec (sid : Sid) (s : State) : (emitSid sid s).dec = { s.dec with dout := s.dec.dout ++ [sid], dgrp := s.dec.dgrp + 1 } := rfl
@[simp] theorem emitSid_elog (sid : Sid) (s : State) : (emitSid sid s).elog = s.elog := rfl
@[simp] theorem emitSid_dlog (sid : Sid) (s : State) : (emitSid sid s).dlog = s.dlog := rfl
@[simp] theorem emitSid_cfg (sid : Sid) (s : State) : (emitSid sid s).cfg = s.cfg := rfl
@[simp] theorem emitSid_port (sid : Sid) (s : State) : (emitSid sid s).port = s.port := rfl
@[simp] theorem emitSid_micro (sid : Sid) (s : State) : (emitSid sid s).micro = s.micro := rfl

@[simp] theorem endScan_success_enc (s : State) : (endScan .success s).enc = s.enc := rfl
@[simp] theorem endScan_success_dec (s : State) : (endScan .success s).dec = { s.dec with inp := [], dst := .done } := rfl
@[simp] theorem endScan_success_elog (s : State) : (endScan .success s).elog = s.elog := rfl
@[simp] theorem endScan_success_dlog (s : State) : (endScan .success s).dlog = s.dlog ++ [s.dec.dout] := rfl
@[simp] theorem endScan_success_cfg (s : State) : (endScan .success s).cfg = s.cfg := rfl
@[simp] theorem endScan_success_port (s : State) : (endScan .success s).port = s.port := rfl
@[simp] theorem endScan_success_micro (s : State) : (endScan .success s).micro = s.micro := rfl

@[simp] theorem endScan_invalidCode_enc (s : State) : (endScan .invalidCode s).enc = s.enc := rfl
@[simp] theorem endScan_invalidCode_dec (s : State) : (endScan .invalidCode s).dec = { s.dec with inp := [], dst := .failed, derr := .invalidCode } := rfl
@[simp] theorem endScan_invalidCode_elog (s : State) : (endScan .invalidCode s).elog = s.elog := rfl
@[simp] theorem endScan_invalidCode_dlog (s : State) : (endScan .invalidCode s).dlog = s.dlog := rfl
@[simp] theorem endScan_invalidCode_cfg (s : State) : (endScan .invalidCode s).cfg = s.cfg := rfl
@[simp] theorem endScan_invalidCode_port (s : State) : (endScan .invalidCode s).port = s.port := rfl
@[simp] theorem endScan_invalidCode_micro (s : State) : (endScan .invalidCode s).micro = s.micro := rfl

@[simp] theorem endScan_endOfDigits_enc (s : State) : (endScan .endOfDigits s).enc = s.enc := rfl
@[simp] theorem endScan_endOfDigits_dec (s : State) : (endScan .endOfDigits s).dec = { s.dec with inp := [], dst := .failed, derr := .endOfDigits } := rfl
@[simp] theorem endScan_endOfDigits_elog (s : State) : (endScan .endOfDigits s).elog = s.elog := rfl
@[simp] theorem endScan_endOfDigits_dlog (s : State) : (endScan .endOfDigits s).dlog = s.dlog := rfl
@[simp] theorem endScan_endOfDigits_cfg (s : State) : (endScan .endOfDigits s).cfg = s.cfg := rfl
@[simp] theorem endScan_endOfDigits_port (s : State) : (endScan .endOfDigits s).port = s.port := rfl
@[simp] theorem endScan_endOfDigits_micro (s : State) : (endScan .endOfDigits s).micro = s.micro := rfl

/-! ### Power-on -/

@[simp] theorem powerOn_enc (c : Config) : (State.powerOn c).enc = ⟨0, 0, [], .active, .noError⟩ := rfl
@[simp] theorem powerOn_dec (c : Config) : (State.powerOn c).dec = ⟨[], [], 0, .loading, .noError⟩ := rfl
@[simp] theorem powerOn_elog (c : Config) : (State.powerOn c).elog = [] := rfl
@[simp] theorem powerOn_dlog (c : Config) : (State.powerOn c).dlog = [] := rfl
@[simp] theorem powerOn_cfg (c : Config) : (State.powerOn c).cfg = c := rfl
@[simp] theorem powerOn_port (c : Config) : (State.powerOn c).port = [] := rfl
@[simp] theorem powerOn_micro (c : Config) : (State.powerOn c).micro = none := rfl

end Sys2Proof.Machine
end

