-- ==== Sys2Proof/Laws/Ops.lean ====
section
/-! SUPPORT. What each shared operation can do, said once: the next state it answers and when it answers
one. Later proofs cite these and do not unfold the operations. -/

namespace Sys2Proof.Machine

/-! ### Sequencing -/

@[simp] theorem andThen_next_left (s : State)
    (f : State → Host.Outcome State Fault Refusal) : andThen (.next s) f = f s := rfl

@[simp] theorem andThen_refused_left (r : Refusal)
    (f : State → Host.Outcome State Fault Refusal) : andThen (.refused r) f = .refused r := rfl

@[simp] theorem andThen_fault_left (r : Fault)
    (f : State → Host.Outcome State Fault Refusal) : andThen (.fault r) f = .fault r := rfl

/-- A sequence answers a next state exactly where both of its parts do. -/
theorem andThen_eq_next {x : Host.Outcome State Fault Refusal}
    {f : State → Host.Outcome State Fault Refusal} {t : State} :
    andThen x f = .next t ↔ ∃ u, x = .next u ∧ f u = .next t := by
  cases x <;> simp

theorem andThen_assoc (x : Host.Outcome State Fault Refusal)
    (f g : State → Host.Outcome State Fault Refusal) :
    andThen (andThen x f) g = andThen x (fun s => andThen (f s) g) := by
  cases x <;> rfl

@[simp] theorem execAll_nil (s : State) : execAll [] s = .next s := rfl

@[simp] theorem execAll_cons (i : Instr) (is : List Instr) (s : State) :
    execAll (i :: is) s = andThen (exec i s) (execAll is) := rfl

theorem execAll_append (is js : List Instr) (s : State) :
    execAll (is ++ js) s = andThen (execAll is s) (execAll js) := by
  induction is generalizing s with
  | nil => rfl
  | cons i is ih =>
    simp only [List.cons_append, execAll_cons, andThen_assoc]
    congr 1
    funext t
    exact ih t

/-! ### The bit-buffer controller -/

/-- The state after a `FLUSH` (R122). -/
abbrev flushed (s : State) : State :=
  { s with enc := { s.enc with
      out := s.enc.out ++ leBytes 3 s.enc.acc.toNat, acc := 0, cnt := 0 } }

theorem flush_eq_next {s t : State} :
    flush s = .next t ↔ outHasRoom s = true ∧ t = flushed s := by
  unfold flush
  split
  · rename_i h
    simp only [h, true_and, Host.Outcome.next.injEq]
    exact eq_comm
  · rename_i h
    simp [h]

theorem flush_eq_refused (s : State) (h : outHasRoom s = false) :
    flush s = .refused .noCapacity := by
  simp [flush, h]

theorem flushIfFull_of_ne (s : State) (h : s.enc.cnt ≠ 24#5) : flushIfFull s = .next s := by
  simp only [flushIfFull, blockFull, beq_iff_eq]
  rw [if_neg h]

theorem flushIfFull_of_eq (s : State) (h : s.enc.cnt = 24#5) : flushIfFull s = flush s := by
  simp only [flushIfFull, blockFull, beq_iff_eq]
  rw [if_pos h]

/-- The flush test answers the state itself below 24 bits, the flushed state at 24 (R121). -/
theorem flushIfFull_eq_next {s t : State} :
    flushIfFull s = .next t ↔
      (s.enc.cnt ≠ 24#5 ∧ t = s) ∨ (s.enc.cnt = 24#5 ∧ outHasRoom s = true ∧ t = flushed s) := by
  by_cases h : s.enc.cnt = 24#5
  · rw [flushIfFull_of_eq s h, flush_eq_next]; simp [h]
  · rw [flushIfFull_of_ne s h, Host.Outcome.next.injEq]
    simp only [h, ne_eq, not_false_eq_true, true_and, false_and, or_false]
    exact eq_comm

/-- The state after the writes of an append (R121). -/
abbrev withBits (bits : List Bool) (s : State) : State :=
  { s with enc := { s.enc with
      acc := writeBits s.enc.acc s.enc.cnt.toNat bits,
      cnt := s.enc.cnt + BitVec.ofNat 5 bits.length } }

theorem addBits_of_le (bits : List Bool) (s : State)
    (h : s.enc.cnt.toNat + bits.length ≤ 24) : addBits bits s = .next (withBits bits s) := by
  simp only [addBits, blockBits]
  rw [if_pos h]

theorem addBits_eq_next {bits : List Bool} {s t : State} :
    addBits bits s = .next t ↔
      s.enc.cnt.toNat + bits.length ≤ 24 ∧ t = withBits bits s := by
  simp only [addBits, blockBits]
  split
  · rename_i h
    simp only [h, true_and, Host.Outcome.next.injEq]
    exact eq_comm
  · rename_i h
    simp [h]

/-- The count after an append that stays inside the accumulator does not wrap (R131). -/
theorem toNat_cnt_add (n : Cnt) (k : Nat) (h : n.toNat + k ≤ 24) :
    (n + BitVec.ofNat 5 k).toNat = n.toNat + k := by
  rw [BitVec.toNat_add, BitVec.toNat_ofNat]
  omega

/-- What `APPEND` can do: with a full block it flushes and starts the next one, otherwise it adds to
the block, and the written bits fit (R121). -/
theorem append_eq_next {bits : List Bool} {s t : State} :
    append bits s = .next t ↔
      (s.enc.cnt ≠ 24#5 ∧ s.enc.cnt.toNat + bits.length ≤ 24 ∧ t = withBits bits s) ∨
      (s.enc.cnt = 24#5 ∧ outHasRoom s = true ∧ bits.length ≤ 24 ∧
        t = withBits bits (flushed s)) := by
  simp only [append, andThen_eq_next, flushIfFull_eq_next, addBits_eq_next]
  constructor
  · rintro ⟨u, (⟨h, rfl⟩ | ⟨h, hr, rfl⟩), hle, rfl⟩
    · exact .inl ⟨h, hle, rfl⟩
    · exact .inr ⟨h, hr, by simpa using hle, rfl⟩
  · rintro (⟨h, hle, rfl⟩ | ⟨h, hr, hle, rfl⟩)
    · exact ⟨s, .inl ⟨h, rfl⟩, hle, rfl⟩
    · exact ⟨flushed s, .inr ⟨h, hr, rfl⟩, by simpa using hle, rfl⟩

/-- What a push can do (R101): the flush test, then the append of a known symbol's code, or failure
entry. -/
theorem pushSid_eq_next {sid : Sid} {s t : State} :
    pushSid sid s = .next t ↔ ∃ u, flushIfFull s = .next u ∧
      ((∃ y, symOfSid sid = some y ∧ addBits (symBitsOf u.cfg y) u = .next t) ∨
        (symOfSid sid = none ∧ t = raise .unknownSymbol u)) := by
  simp only [pushSid, andThen_eq_next]
  refine exists_congr fun u => and_congr_right fun _ => ?_
  cases symOfSid sid with
  | none => simp [eq_comm (a := t)]
  | some y => simp

@[simp] theorem symOfSid_sidOf (y : Sym) : symOfSid (sidOf y) = some y := by
  cases y <;> decide

theorem symOfSid_eq_none {sid : Sid} : symOfSid sid = none ↔ sid = 7 := by
  revert sid; decide

theorem sidOf_of_symOfSid {sid : Sid} {y : Sym} (h : symOfSid sid = some y) : sidOf y = sid := by
  revert sid y h; intro sid; revert sid; decide

theorem length_symBitsOf (c : Config) (y : Sym) : (symBitsOf c y).length = 3 := rfl

theorem length_fillerBitsOf (c : Config) : (fillerBitsOf c).length = 1 := rfl

/-! ### The scan -/

/-- The loop's turn on an existing group (R148). -/
theorem scan_group (t : CodeTable) (g : Nat) (dout : List Sid) (c0 c1 c2 : Bool)
    (rest : List Bool) :
    scan t g dout (c0 :: c1 :: c2 :: rest) =
      match groupAction (t.inv (groupVec c0 c1 c2)) with
      | .emit sid => scan t (g + 1) (dout ++ [sid]) rest
      | .stop e => ⟨g, dout, e⟩ := by
  rw [scan] <;> rfl

/-- A scan keeps what was emitted before it and adds one symbol for each group it passes, so the
group index is the number of symbols (R38). -/
theorem scan_emits (t : CodeTable) (ds : List Bool) (g : Nat) (dout : List Sid) :
    ∃ new, (scan t g dout ds).dout = dout ++ new ∧ (scan t g dout ds).g = g + new.length ∧
      ∀ x ∈ new, x.toNat ≤ 5 := by
  induction g, dout, ds using scan.induct t with
  | case1 g dout => exact ⟨[], by simp [scan]⟩
  | case2 g dout a => exact ⟨[], by simp [scan]⟩
  | case3 g dout a b => exact ⟨[], by simp [scan]⟩
  | case4 g dout c0 c1 c2 rest sid h ih =>
    obtain ⟨new, h1, h2, h3⟩ := ih
    refine ⟨sid :: new, ?_, ?_, ?_⟩
    · rw [scan_group, h]; simpa using h1
    · rw [scan_group, h]; simp only [h2, List.length_cons]; omega
    · have h5 : sid.toNat ≤ 5 := by
        cases hy : t.inv (groupVec c0 c1 c2) with
        | none => simp [groupAction, hy] at h
        | some y => cases y <;> simp [groupAction, hy] at h <;> subst h <;> decide
      intro x hx
      rcases List.mem_cons.1 hx with rfl | hx
      · exact h5
      · exact h3 x hx
  | case5 g dout c0 c1 c2 rest e h => exact ⟨[], by rw [scan_group, h]; simp⟩

/-- `W_MIN` is a function of its own parameter alone. -/
@[simp] theorem wMin_withFillerBit (c : Config) (b : Bool) :
    Config.wMin { c with fillerBit := b } = c.wMin := rfl

/-- A digit string depends on `W_MIN` at its own byte count only (R143). -/
theorem digits_congr {w v : Nat → Nat} {inp : List Byte} (h : w inp.length = v inp.length) :
    digits w inp = digits v inp := by
  simp only [digits, digitLen, h]

@[simp] theorem length_digits (w : Nat → Nat) (inp : List Byte) :
    (digits w inp).length = digitLen w inp := by
  simp [digits]

theorem getElem?_digits (w : Nat → Nat) (inp : List Byte) (i : Nat) (h : i < digitLen w inp) :
    (digits w inp)[i]? = some ((le inp).testBit i) := by
  simp [digits, h]

/-- At or above `DLEN` every bit of `M` is 0 (R143). -/
theorem testBit_of_digitLen_le (w : Nat → Nat) (inp : List Byte) (i : Nat)
    (h : digitLen w inp ≤ i) : (le inp).testBit i = false :=
  testBit_eq_false_of_bitlen_le (le_trans (le_max_right _ _) h)

/-- The digit at an offset, 0 where there is none, is the bit of `M` (R143, R144). -/
theorem getD_digits (w : Nat → Nat) (inp : List Byte) (i : Nat) :
    (digits w inp).getD i false = (le inp).testBit i := by
  by_cases h : i < digitLen w inp
  · simp [List.getD, getElem?_digits w inp i h]
  · rw [testBit_of_digitLen_le w inp i (by omega), List.getD_eq_default]
    simpa using h

end Sys2Proof.Machine
end

