-- ==== Sys2Proof/Laws/Instr.lean ====
section
/-! SUPPORT. What an instruction and a step can do where they answer a next state: one lemma for each
instruction whose meaning has cases, and one for the step. -/

namespace Sys2Proof.Machine

/-! ### Repeated filler appends -/

theorem fillTimes_add (m n : Nat) (s : State) :
    fillTimes (m + n) s = andThen (fillTimes m s) (fillTimes n) := by
  induction m generalizing s with
  | zero => simp [fillTimes]
  | succ m ih =>
    rw [show m + 1 + n = (m + n) + 1 by omega, fillTimes, fillTimes, andThen_assoc]
    congr 1
    funext t
    exact ih t

/-- A filler append changes nothing but the accumulator, its count and the staging sequence. -/
theorem fill_frame {s t : State} (h : fill s = .next t) :
    t = { s with enc := { s.enc with acc := t.enc.acc, cnt := t.enc.cnt, out := t.enc.out } } := by
  rcases append_eq_next.1 h with ⟨_, _, rfl⟩ | ⟨_, _, _, rfl⟩ <;> rfl

theorem fillTimes_frame {n : Nat} {s t : State} (h : fillTimes n s = .next t) :
    t = { s with enc := { s.enc with acc := t.enc.acc, cnt := t.enc.cnt, out := t.enc.out } } := by
  induction n generalizing s with
  | zero => cases h; rfl
  | succ n ih =>
    obtain ⟨u, h1, h2⟩ := andThen_eq_next.1 h
    rw [ih h2, fill_frame h1]

/-! ### The commands -/

/-- A push that answers a next state fails the session on sid 7 and otherwise adds the symbol's bits
to the block, or to a new block after a flush (R101). -/
theorem exec_epush_eq_next {sid : Sid} {s t : State} (h : exec (.epush sid) s = .next t) :
    s.enc.est = .active ∧
      ((sid = 7 ∧ t = { s with enc := ⟨0, 0, [], .failed, .unknownSymbol⟩ }) ∨
       ∃ y, sid = sidOf y ∧
        ((s.enc.cnt ≠ 24#5 ∧ s.enc.cnt.toNat + 3 ≤ 24 ∧ t = withBits (symBitsOf s.cfg y) s) ∨
         (s.enc.cnt = 24#5 ∧ outHasRoom s = true ∧
          t = withBits (symBitsOf s.cfg y) (flushed s)))) := by
  have ha : s.enc.est = .active := by
    by_contra hc
    simp [exec, execEpush, hc] at h
  refine ⟨ha, ?_⟩
  simp only [exec, execEpush, ha, if_true, pushSid_eq_next, flushIfFull_eq_next] at h
  obtain ⟨u, hu, (⟨y, hy, hb⟩ | ⟨hy, rfl⟩)⟩ := h
  · refine .inr ⟨y, (sidOf_of_symOfSid hy).symm, ?_⟩
    rw [addBits_eq_next] at hb
    rcases hu with ⟨h1, rfl⟩ | ⟨h1, h2, rfl⟩
    · exact .inl ⟨h1, hb.1, hb.2⟩
    · exact .inr ⟨h1, h2, hb.2⟩
  · refine .inl ⟨symOfSid_eq_none.1 hy, ?_⟩
    rcases hu with ⟨h1, rfl⟩ | ⟨h1, h2, rfl⟩ <;> rfl

/-- `EFIN` answers the commit of what 24 filler appends leave (R105). -/
theorem exec_efin_eq_next {s t : State} :
    exec .efin s = .next t ↔
      s.enc.est = .active ∧ ∃ u, fillTimes 24 s = .next u ∧ t = commitArtifact u := by
  by_cases ha : s.enc.est = .active
  · simp only [exec, execEfin, ha, if_true, fillCount, andThen_eq_next, true_and,
      Host.Outcome.next.injEq]
    exact exists_congr fun u => and_congr_right fun _ => eq_comm
  · simp [exec, execEfin, ha]

/-- `DBYTE` answers the loaded byte (R141). -/
theorem exec_dbyte_eq_next {b : Byte} {s t : State} :
    exec (.dbyte b) s = .next t ↔
      s.dec.dst = .loading ∧ inpHasRoom s = true ∧ t = loadByte b s := by
  by_cases hl : s.dec.dst = .loading <;> by_cases hr : inpHasRoom s = true <;>
    simp [exec, execDbyte, hl, hr, eq_comm]

/-- `DRUN` answers the whole scan (R142). -/
theorem exec_drun_eq_next {s t : State} :
    exec .drun s = .next t ↔ s.dec.dst = .loading ∧ t = runScan s := by
  by_cases hl : s.dec.dst = .loading <;> simp [exec, execDrun, hl, eq_comm]

/-- A group by itself answers the group's action, whatever `INV` gave (R147). -/
theorem exec_instrOfGroup (o : Option Sym) (s : State) :
    exec (instrOfGroup o) s = .next (scanGroup o s) := by
  cases o with
  | none => rfl
  | some y => cases y <;> rfl

/-! ### The step -/

/-- All a step that answers a next state can have done: nothing, the reset input, or one instruction,
decoded from the first word presented or from the inner code input. -/
theorem step_eq_next {s t : State} (h : step s = .next t) :
    (s.micro = none ∧ s.port = [] ∧ t = s) ∨
    (∃ rest, s.micro = none ∧ s.port = .rst :: rest ∧ t = afterRst { s with port := rest }) ∨
    (∃ w rest i, s.micro = none ∧ s.port = .ecmd w :: rest ∧ decode s.cfg (.ecmd w) = .ok i ∧
      exec i { s with port := rest } = .next t) ∨
    (∃ w rest i, s.micro = none ∧ s.port = .dcmd w :: rest ∧ decode s.cfg (.dcmd w) = .ok i ∧
      exec i { s with port := rest } = .next t) ∨
    (∃ m i, s.micro = some m ∧ decode s.cfg m.toCodeWord = .ok i ∧
      exec i { s with micro := none } = .next t) := by
  have decoded : ∀ (w : CodeWord) (u : State),
      (match decode u.cfg w with
        | .ok i => exec i u
        | .error e => .refused (refusalOf e)) = Host.Outcome.next t →
      ∃ i, decode u.cfg w = .ok i ∧ exec i u = .next t := by
    intro w u hw
    cases hd : decode u.cfg w with
    | error e => rw [hd] at hw; cases hw
    | ok i => rw [hd] at hw; exact ⟨i, rfl, hw⟩
  cases hm : s.micro with
  | some m =>
    simp only [step, fetch, hm] at h
    obtain ⟨i, hd, he⟩ := decoded m.toCodeWord { s with micro := none } h
    exact .inr (.inr (.inr (.inr ⟨m, i, rfl, hd, he⟩)))
  | none =>
    simp only [step, fetch, hm] at h
    cases hp : s.port with
    | nil =>
      simp only [hp, Host.Outcome.next.injEq] at h
      exact .inl ⟨rfl, rfl, h.symm⟩
    | cons x rest =>
      cases x with
      | rst =>
        simp only [hp, Host.Outcome.next.injEq] at h
        refine .inr (.inl ⟨rest, rfl, rfl, ?_⟩)
        rw [← h]
      | ecmd w =>
        simp only [hp] at h
        obtain ⟨i, hd, he⟩ := decoded (.ecmd w) { s with port := rest, micro := none } h
        exact .inr (.inr (.inl ⟨w, rest, i, rfl, rfl, hd, he⟩))
      | dcmd w =>
        simp only [hp] at h
        obtain ⟨i, hd, he⟩ := decoded (.dcmd w) { s with port := rest, micro := none } h
        exact .inr (.inr (.inr (.inl ⟨w, rest, i, rfl, rfl, hd, he⟩)))

end Sys2Proof.Machine
end

