-- ==== Sys2Proof/Laws/Params.lean ====
section
/-! SUPPORT. The parameters `CODE` and `W_MIN` as plain data stand for every value that 00_scope.md R7
allows: a code table for every choice, and a width for every function of the byte count (log entries 4
and 6). -/

namespace Sys2Proof.Laws

open Sys2Proof.Machine

/-! ### CODE -/

theorem arrangement_perm (g : Nat → Nat) (n : Nat) (l : List Sym3) (h : l.length = n) :
    (arrangement g n l).Perm l := by
  induction n generalizing l with
  | zero => simp [arrangement, List.length_eq_zero_iff.1 h]
  | succ n ih =>
    have hk : g n % (n + 1) < l.length := by rw [h]; exact Nat.mod_lt _ n.succ_pos
    have he : (l.eraseIdx (g n % (n + 1))).length = n := by
      rw [List.length_eraseIdx_of_lt hk, h, Nat.add_sub_cancel]
    rw [arrangement, List.getD_eq_getElem _ _ hk]
    exact ((ih _ he).cons _).trans (List.getElem_cons_eraseIdx_perm hk)

/-- The table of every choice has as its codes an arrangement of the seven patterns. -/
theorem entries_ofChoices (g : Nat → Nat) :
    (CodeTable.ofChoices g).entries = arrangement g 7 usedPatterns := rfl

/-- R7: the table of every choice is legal. -/
theorem ofChoices_wf (g : Nat → Nat) : (CodeTable.ofChoices g).wf = true := by
  have hp : (CodeTable.ofChoices g).entries.Perm usedPatterns :=
    arrangement_perm g 7 usedPatterns rfl
  have hn : (CodeTable.ofChoices g).entries.Nodup := hp.nodup_iff.2 (by decide)
  have hu : unusedPattern ∉ (CodeTable.ofChoices g).entries := fun h =>
    absurd (hp.mem_iff.1 h) (by decide)
  simp [CodeTable.wf, hn, hu]

/-- An arrangement of `n` elements depends on the choices below `n` only. -/
theorem arrangement_congr {g h : Nat → Nat} {n : Nat} (l : List Sym3)
    (hg : ∀ k, k < n → g k = h k) : arrangement g n l = arrangement h n l := by
  induction n generalizing l with
  | zero => rfl
  | succ n ih =>
    rw [arrangement, arrangement, hg n n.lt_succ_self,
      ih _ fun k hk => hg k (Nat.lt_succ_of_lt hk)]

/-- Every order of a list's elements is some arrangement of it. -/
theorem exists_arrangement {l m : List Sym3} (h : m.Perm l) :
    ∃ g, arrangement g l.length l = m := by
  induction m generalizing l with
  | nil => exact ⟨fun _ => 0, by simp [h.symm.eq_nil, arrangement]⟩
  | cons x m ih =>
    obtain ⟨i, hi, hx⟩ := List.getElem_of_mem (h.mem_iff.1 List.mem_cons_self)
    have he : (l.eraseIdx i).length = m.length := by
      rw [List.length_eraseIdx_of_lt hi, ← h.length_eq, List.length_cons, Nat.add_sub_cancel]
    have hl : l.length = m.length + 1 := by rw [← h.length_eq, List.length_cons]
    obtain ⟨g, hg⟩ := ih (l := l.eraseIdx i) <| List.Perm.cons_inv (a := x) <|
      h.trans (hx ▸ (List.getElem_cons_eraseIdx_perm hi).symm)
    refine ⟨Function.update g m.length i, ?_⟩
    rw [hl, arrangement, Function.update_self, Nat.mod_eq_of_lt (hl ▸ hi),
      List.getD_eq_getElem _ _ hi, hx,
      arrangement_congr _ fun k hk => Function.update_of_ne (Nat.ne_of_lt hk) i g, ← he, hg]

/-- R7: every legal table is the table of some choice. -/
theorem legal_table_is_ofChoices (t : CodeTable) (h : t.wf = true) :
    ∃ g, CodeTable.ofChoices g = t := by
  simp only [CodeTable.wf, Bool.and_eq_true, decide_eq_true_eq, Bool.not_eq_true',
    List.contains_eq_mem, decide_eq_false_iff_not] at h
  have hs : t.entries ⊆ usedPatterns := fun x hx => by
    have hne : x ≠ unusedPattern := fun e => h.2 (e ▸ hx)
    revert hne; clear hx; revert x; decide
  obtain ⟨g, hg⟩ := exists_arrangement ((List.subperm_of_subset h.1 hs).perm_of_length_le le_rfl)
  refine ⟨g, ?_⟩
  have hg7 : arrangement g 7 usedPatterns = t.entries := hg
  simp [CodeTable.ofChoices, nSym, hg7, CodeTable.entries]

/-! ### W_MIN -/

/-- Every function of the byte count is some table below any bound; where it is known for every length
it is one of the functions below, or any at all (`PadWidth.free`). -/
theorem padWidth_covers_every_function (f : Nat → Nat) (bound : Nat) :
    ∃ w : PadWidth, ∀ len, len < bound → padWidthAt w len = f len := by
  refine ⟨.table ((List.range bound).map f) [], fun len h => ?_⟩
  simp [padWidthAt, List.getD, h]

/-- The source's own form, a constant function (90_conflicts.md C5). -/
theorem padWidthAt_constant (n len : Nat) : padWidthAt (.table [] [n]) len = n := by
  simp [padWidthAt, polyAt]

/-- The width the source recommends, `8L` (90_conflicts.md C5). -/
theorem padWidthAt_proportional (len : Nat) : padWidthAt (.table [] [0, 8]) len = 8 * len := by
  simp [padWidthAt, polyAt, Nat.mul_comm]

/-- A width that no affine function of the length reaches. -/
theorem padWidthAt_square (len : Nat) : padWidthAt (.table [] [0, 0, 1]) len = len * len := by
  simp [padWidthAt, polyAt]

end Sys2Proof.Laws
end

