-- ==== Sys2Proof/Laws/PerInstr.lean ====
section
/-! SUPPORT. Statements about every instruction as syntax, made one constructor at a time. -/

namespace Sys2Proof.Laws

/-- The width in bits of a word's format (30_encoding.md R70). -/
def wordWidth : CodeWord → Nat
  | .ecmd _ => 5
  | .dcmd _ => 10
  | .sym3 _ => 3
  | .fill1 _ => 1

/-- The width that spec/opcode_table.json gives an instruction's row. -/
def tableWidth : Instr → Nat
  | .estart => 5
  | .epush _ => 5
  | .efin => 5
  | .dstart => 10
  | .dbyte _ => 10
  | .drun => 10
  | .symInk0 => 3
  | .symInk1 => 3
  | .symInk2 => 3
  | .symInk3 => 3
  | .symInk4 => 3
  | .symLineEnd => 3
  | .symStreamEnd => 3
  | .symUnused => 3
  | .filler => 1

/-- An instruction's word has the format its row of the table gives it, in every built hardware. -/
def EncodesInItsFormat.Statement (i : Instr) : Prop :=
  ∀ c : Config, wordWidth (encode c i) = tableWidth i

theorem EncodesInItsFormat.estart : EncodesInItsFormat.Statement .estart := fun _ => rfl
theorem EncodesInItsFormat.epush (sid : Sid) :
    EncodesInItsFormat.Statement (.epush sid) := fun _ => rfl
theorem EncodesInItsFormat.efin : EncodesInItsFormat.Statement .efin := fun _ => rfl
theorem EncodesInItsFormat.dstart : EncodesInItsFormat.Statement .dstart := fun _ => rfl
theorem EncodesInItsFormat.dbyte (b : Byte) :
    EncodesInItsFormat.Statement (.dbyte b) := fun _ => rfl
theorem EncodesInItsFormat.drun : EncodesInItsFormat.Statement .drun := fun _ => rfl
theorem EncodesInItsFormat.symInk0 : EncodesInItsFormat.Statement .symInk0 := fun _ => rfl
theorem EncodesInItsFormat.symInk1 : EncodesInItsFormat.Statement .symInk1 := fun _ => rfl
theorem EncodesInItsFormat.symInk2 : EncodesInItsFormat.Statement .symInk2 := fun _ => rfl
theorem EncodesInItsFormat.symInk3 : EncodesInItsFormat.Statement .symInk3 := fun _ => rfl
theorem EncodesInItsFormat.symInk4 : EncodesInItsFormat.Statement .symInk4 := fun _ => rfl
theorem EncodesInItsFormat.symLineEnd : EncodesInItsFormat.Statement .symLineEnd := fun _ => rfl
theorem EncodesInItsFormat.symStreamEnd : EncodesInItsFormat.Statement .symStreamEnd := fun _ => rfl
theorem EncodesInItsFormat.symUnused : EncodesInItsFormat.Statement .symUnused := fun _ => rfl
theorem EncodesInItsFormat.filler : EncodesInItsFormat.Statement .filler := fun _ => rfl

end Sys2Proof.Laws
end

