-- ==== Sys2Proof/Laws/Scan.lean ====
section
/-! SUPPORT. The groups of a digit string and what the scan does with them, said once. -/

namespace Sys2Proof.Machine

theorem groupAt_zero (c0 c1 c2 : Bool) (rest : List Bool) :
    groupAt (c0 :: c1 :: c2 :: rest) 0 = some (groupVec c0 c1 c2) := by
  simp [groupAt]

theorem groupAt_succ (c0 c1 c2 : Bool) (rest : List Bool) (g : Nat) :
    groupAt (c0 :: c1 :: c2 :: rest) (g + 1) = groupAt rest g := by
  simp only [groupAt, List.length_cons]
  by_cases h : 3 * g + 3 ≤ rest.length
  · rw [if_pos h, if_pos (by omega)]; congr 1
  · rw [if_neg h, if_neg (by omega)]

/-- The scan goes on at a symbol other than the terminator, and emits its sid (R147). -/
theorem groupAction_of_ne {y : Sym} (h : y ≠ .streamEnd) :
    groupAction (some y) = .emit (sidOf y) := by
  cases y <;> first | rfl | exact absurd rfl h

/-- A group at which the scan emits is the code of a symbol other than the terminator (R147). -/
theorem eq_of_groupAction_emit {o : Option Sym} {sid : Sid} (h : groupAction o = .emit sid) :
    ∃ y, o = some y ∧ y ≠ .streamEnd ∧ sid = sidOf y := by
  cases o with
  | none => simp [groupAction] at h
  | some y => cases y <;> simp [groupAction] at h <;> subst h <;> exact ⟨_, rfl, by decide, rfl⟩

/-- A group at which the scan stops is the terminator or no code (R147). -/
theorem eq_of_groupAction_stop {o : Option Sym} {e : ScanEnd} (h : groupAction o = .stop e) :
    (o = none ∧ e = .invalidCode) ∨ (o = some .streamEnd ∧ e = .success) := by
  cases o with
  | none => simp only [groupAction, GroupAction.stop.injEq] at h; exact .inl ⟨rfl, h.symm⟩
  | some y => cases y <;> simp [groupAction] at h; exact .inr ⟨rfl, h.symm⟩

/-- All a scan can do (R148): it passes `new.length` groups, each the code of a symbol other than the
terminator, and stops at the next one, for one of the four reasons of R178 in their order. -/
theorem scan_spec (t : CodeTable) (ds : List Bool) (g : Nat) (dout : List Sid) :
    ∃ new how, scan t g dout ds = ⟨g + new.length, dout ++ new, how⟩ ∧
      (∀ k, k < new.length → ∃ y, y ≠ Sym.streamEnd ∧
        (groupAt ds k).bind t.inv = some y ∧ new[k]? = some (sidOf y)) ∧
      ((ds.length = 3 * new.length ∧ how = .endOfDigits) ∨
       (3 * new.length < ds.length ∧ ds.length < 3 * new.length + 3 ∧ how = .invalidCode) ∨
       ((∃ p, groupAt ds new.length = some p ∧ t.inv p = none) ∧ how = .invalidCode) ∨
       ((groupAt ds new.length).bind t.inv = some .streamEnd ∧ how = .success)) := by
  induction g, dout, ds using scan.induct t with
  | case1 g dout => exact ⟨[], .endOfDigits, by simp [scan]⟩
  | case2 g dout a => exact ⟨[], .invalidCode, by simp [scan]⟩
  | case3 g dout a b => exact ⟨[], .invalidCode, by simp [scan]⟩
  | case4 g dout c0 c1 c2 rest sid h ih =>
    obtain ⟨new, how, h1, h2, h3⟩ := ih
    obtain ⟨y, hy, hne, rfl⟩ := eq_of_groupAction_emit h
    refine ⟨sidOf y :: new, how, ?_, ?_, ?_⟩
    · rw [scan_group, h]
      simp only [h1, List.length_cons, List.append_assoc, List.singleton_append]
      congr 1
      omega
    · intro k hk
      cases k with
      | zero => exact ⟨y, hne, by rw [groupAt_zero]; exact hy, rfl⟩
      | succ k => rw [groupAt_succ]; simpa using h2 k (by simpa using hk)
    · simp only [List.length_cons, groupAt_succ]
      rcases h3 with h3 | h3 | h3 | h3
      · exact .inl ⟨by omega, h3.2⟩
      · exact .inr (.inl ⟨by omega, by omega, h3.2.2⟩)
      · exact .inr (.inr (.inl h3))
      · exact .inr (.inr (.inr h3))
  | case5 g dout c0 c1 c2 rest e h =>
    refine ⟨[], e, by rw [scan_group, h]; simp, by simp, ?_⟩
    rw [List.length_nil, groupAt_zero]
    rcases eq_of_groupAction_stop h with ⟨hy, rfl⟩ | ⟨hy, rfl⟩
    · exact .inr (.inr (.inl ⟨⟨_, rfl, hy⟩, rfl⟩))
    · exact .inr (.inr (.inr ⟨hy, rfl⟩))

end Sys2Proof.Machine
end

