-- ==== Sys2Proof/Tests/Slice0.lean ====
section
/-! SUPPORT. Small tests, each on one step or one word, with the results of spec/95_test_vectors.md or
worked by hand from the rule named; and for every statement with hypotheses the states and operands
that meet them, at the boundaries of each clause. -/

namespace Sys2Proof.Tests

open Sys2Proof.Machine

/-! ### Helpers -/

/-- The default `CODE`, unbounded, with a filler bit and a pad width. -/
def cfg (fb : Bool) (w : PadWidth) : Config :=
  ⟨CodeTable.default, fb, w, none, none⟩

/-- The parameters of most tests: filler bit 0, width `8L`. -/
def cfg0 : Config := cfg false (.table [] [0, 8])

/-- The same with filler bit 1. -/
def cfg1 : Config := cfg true (.table [] [0, 8])

/-- Filler bit 0 and a constant width. -/
def cfgW (n : Nat) : Config := cfg false (.table [] [n])

/-- The same with room for one block and one byte. -/
def cfgSmall : Config := ⟨CodeTable.default, false, .table [] [0, 8], some 3, some 1⟩

/-- `CODE2` of V14. -/
def code2 : CodeTable := ⟨0b111, 0b100, 0b010, 0b110, 0b001, 0b101, 0b000⟩

/-- An open encoder session. -/
def encAt (c : Config) (acc : Acc) (cnt : Cnt) (out : List Byte) : State :=
  { State.powerOn c with enc := ⟨acc, cnt, out, .active, .noError⟩ }

/-- A decoder session with its input loaded. -/
def decAt (c : Config) (inp : List Byte) : State :=
  { State.powerOn c with dec := ⟨inp, [], 0, .loading, .noError⟩ }

/-- The next state of an outcome. -/
def after : Host.Outcome State Fault Refusal → Option State
  | .next s => some s
  | .fault _ => none
  | .refused _ => none

/-- The artifact of V1 with filler bit 0, and with filler bit 1. -/
def v1 : List Byte := [0x48, 0x83, 0x1E]
def v1' : List Byte := [0x48, 0x83, 0xFE]

/-- The symbols of V1 before the terminator. -/
def v1Syms : List Sym := [.ink0, .ink4, .lineEnd, .ink4, .ink0, .lineEnd]

/-! ### Well-formedness: each check refuses an ill-formed term -/

theorem test_wf_accepts_default : cfg0.wf = true := by decide
theorem test_wf_accepts_code2 : code2.wf = true := by decide
theorem test_wf_refuses_two_symbols_with_one_code :
    (⟨0, 0, 2, 6, 1, 5, 7⟩ : CodeTable).wf = false := by decide
theorem test_wf_refuses_unused_pattern_as_code :
    (⟨3, 4, 2, 6, 1, 5, 7⟩ : CodeTable).wf = false := by decide
theorem test_wf_refuses_capacity_not_multiple_of_3 :
    Config.wf ⟨CodeTable.default, false, .table [] [0], some 4, none⟩ = false := by decide
theorem test_wf_refuses_newline_as_ink :
    TextChars.wf ⟨'#', '+', '-', '.', 'n', 'n'⟩ = false := by decide
theorem test_wf_refuses_group_of_ill_formed_table :
    Instr.wf ⟨⟨0, 0, 2, 6, 1, 5, 7⟩, false, .table [] [0], none, none⟩ .symInk0 = false := by decide
theorem test_wf_accepts_epush_7 : Instr.wf cfg0 (.epush 7) = true := by decide

/-! ### Decoding: words written out from 30_encoding.md R72, R74, R77, R78 -/

theorem test_decode_estart : decode cfg0 (.ecmd 0b00000) = .ok .estart := rfl
theorem test_decode_epush_ink4 : decode cfg0 (.ecmd 0b01100) = .ok (.epush 4) := rfl
theorem test_decode_epush_7 : decode cfg0 (.ecmd 0b01111) = .ok (.epush 7) := rfl
theorem test_decode_efin : decode cfg0 (.ecmd 0b10000) = .ok .efin := rfl
theorem test_decode_dstart : decode cfg0 (.dcmd 0b0000000000) = .ok .dstart := rfl
theorem test_decode_dbyte : decode cfg0 (.dcmd 0b0110000011) = .ok (.dbyte 0x83) := rfl
theorem test_decode_drun : decode cfg0 (.dcmd 0b1000000000) = .ok .drun := rfl
theorem test_decode_ink0 : decode cfg0 (.sym3 0b000) = .ok .symInk0 := rfl
theorem test_decode_ink1 : decode cfg0 (.sym3 0b100) = .ok .symInk1 := rfl
theorem test_decode_ink2 : decode cfg0 (.sym3 0b010) = .ok .symInk2 := rfl
theorem test_decode_ink3 : decode cfg0 (.sym3 0b110) = .ok .symInk3 := rfl
theorem test_decode_ink4 : decode cfg0 (.sym3 0b001) = .ok .symInk4 := rfl
theorem test_decode_lineEnd : decode cfg0 (.sym3 0b101) = .ok .symLineEnd := rfl
theorem test_decode_streamEnd : decode cfg0 (.sym3 0b111) = .ok .symStreamEnd := rfl
theorem test_decode_unused : decode cfg0 (.sym3 0b011) = .ok .symUnused := rfl
theorem test_decode_filler : decode cfg0 (.fill1 0b0) = .ok .filler := rfl
theorem test_decode_not_the_filler : decode cfg0 (.fill1 0b1) = .error (.notTheFiller 1) := rfl
theorem test_decode_code2_streamEnd :
    decode { cfg0 with code := code2 } (.sym3 0b000) = .ok .symStreamEnd := rfl

/-- V25. -/
theorem test_decode_reserved_ecmd :
    decode cfg0 (.ecmd 0x01) = .error (.reservedEcmd 0x01) ∧
    decode cfg0 (.ecmd 0x11) = .error (.reservedEcmd 0x11) ∧
    decode cfg0 (.ecmd 0x18) = .error (.reservedEcmd 0x18) := ⟨rfl, rfl, rfl⟩

/-- V25. -/
theorem test_decode_reserved_dcmd :
    decode cfg0 (.dcmd 0x001) = .error (.reservedDcmd 0x001) ∧
    decode cfg0 (.dcmd 0x201) = .error (.reservedDcmd 0x201) ∧
    decode cfg0 (.dcmd 0x3FF) = .error (.reservedDcmd 0x3FF) := ⟨rfl, rfl, rfl⟩

/-- The opcode table's words, by its widths (log entry 11). -/
theorem test_tableWord_formats :
    decodeTableWord 8 0x10 = some .efin ∧ decodeTableWord 16 0x148 = some (.dbyte 0x48) ∧
    decodeTableWord 8 3 = some .symUnused ∧ decodeTableWord 3 0 = some .symInk0 ∧
    decodeTableWord 1 0 = some .filler ∧ decodeTableWord 1 1 = some .filler ∧
    decodeTableWord 8 0x18 = none := ⟨rfl, rfl, rfl, rfl, rfl, rfl, rfl⟩

theorem test_withFetchWord_runs_next :
    step (State.reset.withFetchWord 8 0x08) = exec (.epush 0) State.reset ∧
    step (State.reset.withFetchWord 16 0x200) = exec .drun State.reset ∧
    step (State.reset.withFetchWord 8 5) =
      exec .symLineEnd { State.reset with
        cfg := { State.reset.cfg with code := CodeTable.default } } := ⟨rfl, rfl, rfl⟩

/-! ### One step of each instruction -/

/-- V26: `ESTART` abandons a session. -/
theorem test_estart : after (exec .estart (encAt cfg0 0x29 6 [])) = some (State.powerOn cfg0) := rfl

/-- V1 step 3, V28: three bits at positions 6 to 8. -/
theorem test_epush_lineEnd :
    after (exec (.epush 5) (encAt cfg0 0x8 6 [])) = some (encAt cfg0 0x148 9 []) := rfl

/-- V4 step 9: flush first, then add. -/
theorem test_epush_flushes_first :
    after (exec (.epush 1) (encAt cfg0 0x58DCA0 24 [])) =
      some (encAt cfg0 0x4 3 [0xA0, 0xDC, 0x58]) := rfl

/-- V8. -/
theorem test_epush_unknown :
    (after (exec (.epush 7) (encAt cfg0 0x4 3 []))).map (·.enc) =
      some ⟨0, 0, [], .failed, .unknownSymbol⟩ := rfl

/-- V1 with filler bit 0. -/
theorem test_efin_v1 :
    (after (exec .efin (encAt cfg0 0x1E8348 21 []))).map (·.elog) = some [v1] := rfl

/-- V5 with filler bit 1: the second block is partly filler. -/
theorem test_efin_v5 :
    (after (exec .efin (encAt cfg1 0x7A22 15 [0xA0, 0x9C, 0xC6]))).map (·.elog) =
      some [[0xA0, 0x9C, 0xC6, 0x22, 0xFA, 0xFF]] := rfl

/-- V29, q = 24: a filler append flushes first. -/
theorem test_filler_flushes :
    after (exec .filler (encAt cfg1 0xF4902C 24 [])) =
      some (encAt cfg1 1 1 [0x2C, 0x90, 0xF4]) := rfl

/-- R123 worked by hand: bit 5 is written and nothing below it. -/
theorem test_filler_at_5 :
    after (exec .filler (encAt cfg1 0b01010 5 [])) =
      some (encAt cfg1 0b101010 6 []) := rfl

theorem test_dstart : after (exec .dstart (decAt cfg0 [0x48])) = some (State.powerOn cfg0) := rfl

theorem test_dbyte :
    after (exec (.dbyte 0x83) (decAt cfg0 [0x48])) = some (decAt cfg0 [0x48, 0x83]) := rfl

/-- V1d. -/
theorem test_drun_v1 :
    after (exec .drun (decAt cfg0 v1)) =
      some { State.powerOn cfg0 with
        dec := ⟨[], [0, 4, 5, 4, 0, 5], 6, .done, .noError⟩, dlog := [[0, 4, 5, 4, 0, 5]] } := rfl

/-- V16 with `W_MIN = 8`: a partial group. -/
theorem test_drun_v16 :
    (after (exec .drun (decAt (cfgW 8) [5, 0, 0]))).map (·.dec) =
      some ⟨[], [5, 0], 2, .failed, .invalidCode⟩ := rfl

theorem test_symInk0 : (after (exec .symInk0 (decAt cfg0 []))).map (·.dec.dout) = some [0] := rfl
theorem test_symInk1 : (after (exec .symInk1 (decAt cfg0 []))).map (·.dec.dout) = some [1] := rfl
theorem test_symInk2 : (after (exec .symInk2 (decAt cfg0 []))).map (·.dec.dout) = some [2] := rfl
theorem test_symInk3 : (after (exec .symInk3 (decAt cfg0 []))).map (·.dec.dout) = some [3] := rfl
theorem test_symInk4 : (after (exec .symInk4 (decAt cfg0 []))).map (·.dec.dout) = some [4] := rfl
theorem test_symLineEnd :
    (after (exec .symLineEnd (decAt cfg0 [5]))).map (·.dec) =
      some ⟨[5], [5], 1, .loading, .noError⟩ := rfl
theorem test_symStreamEnd :
    (after (exec .symStreamEnd (decAt cfg0 [7]))).map (·.dec) =
      some ⟨[], [], 0, .done, .noError⟩ := rfl
theorem test_symUnused :
    (after (exec .symUnused (decAt cfg0 [3]))).map (·.dec) =
      some ⟨[], [], 0, .failed, .invalidCode⟩ := rfl

/-- R190: the reset input loses the open sessions and keeps the logs. -/
theorem test_reset_input :
    after (step { encAt cfg0 0x8 6 [] with port := [.rst], elog := [v1] }) =
      some { State.powerOn cfg0 with elog := [v1] } := rfl

/-- The status codes of R88 after V8. -/
theorem test_hostView_failed :
    (after (exec (.epush 7) (encAt cfg0 0x4 3 []))).map
      (fun s => ((hostView s).s0, (hostView s).s1, (hostView s).s2, (hostView s).s3)) =
      some (0b10, 0b01, 0b00, 0b00) := rfl

/-- The script line of P1 (R85). -/
theorem test_script_epush :
    scriptLine ['E', 'P', 'U', 'S', 'H', ' ', 'L', 'E', ' ', ';', ' ', 'x'] =
      some [.epush 5] := by decide

/-- R86. -/
theorem test_script_dload :
    scriptLine ['D', 'L', 'O', 'A', 'D', ' ', '0', 'x', '4', '8'] =
      some [.dstart, .dbyte 0x48] := by decide

/-! ### The hypotheses of the statements are met -/

/-- `StepRunsDecodedInstruction`: the reset input, with a command waiting behind it. -/
theorem witness_reset_input :
    let s : State := { encAt cfg0 0x8 6 [] with port := [.rst, .ecmd 0] }
    s.micro = none ∧ s.port = .rst :: [.ecmd 0] := by decide

/-- `EpushAppendsSymbolCode` at both ends of its range of counts. -/
theorem witness_epush_appends :
    ((encAt cfg0 0 0 []).enc.est = .active ∧ (encAt cfg0 0 0 []).enc.cnt.toNat ≤ 21) ∧
    ((encAt cfg0 0x1E8348 21 []).enc.est = .active ∧
      (encAt cfg0 0x1E8348 21 []).enc.cnt.toNat ≤ 21) := by decide

/-- `EpushFlushesWaitingBlock` where the block exactly fits. -/
theorem witness_epush_flushes :
    let s := encAt cfgSmall 0x58DCA0 24 []
    s.enc.est = .active ∧ s.enc.cnt = 24 ∧
      capAllows s.cfg.capOut (s.enc.out.length + 3) = true := by decide

/-- `EpushUnknownSymbolFailsSession` at `CNT = 24` with room, and below 24. -/
theorem witness_epush_unknown :
    (let s := encAt cfgSmall 0x924924 24 []
     s.enc.est = .active ∧
      (s.enc.cnt = 24 → capAllows s.cfg.capOut (s.enc.out.length + 3) = true)) ∧
    (let s := encAt cfgSmall 0x4 3 [0, 0, 0]
     s.enc.est = .active ∧
      (s.enc.cnt = 24 → capAllows s.cfg.capOut (s.enc.out.length + 3) = true)) := by decide

/-- `EpushWithoutRoomHasNoStep`: a full `OUT`, and an unbounded one. -/
theorem witness_epush_without_room :
    (let s := encAt cfgSmall 0x58DCA0 24 [1, 2, 3]
     s.enc.est = .active ∧ s.enc.cnt = 24 ∧
      ∃ c, s.cfg.capOut = some c ∧ c < s.enc.out.length + 3) ∧
    (encAt cfg0 0 0 []).cfg.capOut = none :=
  ⟨⟨rfl, rfl, 3, rfl, by decide⟩, rfl⟩

/-- `EndedEncoderSessionAcceptsOnlyEstart` in both ended states. -/
theorem witness_ended_encoder :
    ({ State.powerOn cfg0 with enc := ⟨0, 0, [], .done, .noError⟩ } : State).enc.est ≠ .active ∧
    ({ State.powerOn cfg0 with enc := ⟨0, 0, [], .failed, .unknownSymbol⟩ } : State).enc.est
      ≠ .active := by decide

/-- `EfinCommitsPaddedLastBlock` at q = 1, q = 24 and q = 0. -/
theorem witness_efin_commits :
    (let s := encAt cfgSmall 1 1 []
     s.enc.est = .active ∧ 1 ≤ s.enc.cnt.toNat ∧ s.enc.cnt.toNat ≤ 24 ∧
      capAllows s.cfg.capOut (s.enc.out.length + 3) = true) ∧
    (let s := encAt cfgSmall 0xF4902C 24 []
     s.enc.est = .active ∧ 1 ≤ s.enc.cnt.toNat ∧ s.enc.cnt.toNat ≤ 24 ∧
      capAllows s.cfg.capOut (s.enc.out.length + 3) = true) ∧
    (let s := encAt cfgSmall 0 0 [1, 2, 3]
     s.enc.est = .active ∧ s.enc.cnt = 0) := by decide

/-- `EfinIsTwentyFourFillersThenCommit`. -/
theorem witness_efin_is_fillers : (encAt cfg0 7 3 []).enc.est = .active := by decide

/-- `FillerAppendsFlushOnceAtTheExpectedOne`: the last append that only fills and the first after the
flush, at q = 1 and at q = 24; and q = 0. -/
theorem witness_filler_appends :
    (let s := encAt cfgSmall 1 1 []
     1 ≤ s.enc.cnt.toNat ∧ s.enc.cnt.toNat ≤ 24 ∧
      capAllows s.cfg.capOut (s.enc.out.length + 3) = true ∧
      23 ≤ 24 - s.enc.cnt.toNat ∧ 25 - s.enc.cnt.toNat ≤ 24) ∧
    (let s := encAt cfgSmall 0xF4902C 24 []
     1 ≤ s.enc.cnt.toNat ∧ s.enc.cnt.toNat ≤ 24 ∧
      capAllows s.cfg.capOut (s.enc.out.length + 3) = true ∧
      0 ≤ 24 - s.enc.cnt.toNat ∧ 25 - s.enc.cnt.toNat ≤ 1) ∧
    (encAt cfgSmall 0 0 []).enc.cnt = 0 := by decide

/-- `EfinWithoutRoomHasNoStep`: no room with one bit and with 24, and no room but an empty buffer. -/
theorem witness_efin_without_room :
    (let s := encAt cfgSmall 1 1 [1, 2, 3]
     s.enc.est = .active ∧ s.enc.cnt.toNat ≤ 24 ∧ 1 ≤ s.enc.cnt.toNat ∧
      ∃ c, s.cfg.capOut = some c ∧ c < s.enc.out.length + 3) ∧
    (let s := encAt cfgSmall 1 24 [1, 2, 3]
     s.enc.est = .active ∧ s.enc.cnt.toNat ≤ 24 ∧ 1 ≤ s.enc.cnt.toNat ∧
      ∃ c, s.cfg.capOut = some c ∧ c < s.enc.out.length + 3) ∧
    (let s := encAt cfgSmall 0 0 [1, 2, 3]
     s.enc.est = .active ∧ s.enc.cnt.toNat ≤ 24) :=
  ⟨⟨rfl, by decide, by decide, 3, rfl, by decide⟩, ⟨rfl, by decide, by decide, 3, rfl, by decide⟩,
    rfl, by decide⟩

/-- `EfinNeverReadsBitsAboveCount`: every bit from `CNT` on differs. -/
theorem witness_efin_never_reads :
    let s := encAt cfg0 0x000007 3 []
    s.enc.cnt.toNat ≤ 24 ∧
      (∀ j, j < s.enc.cnt.toNat → (0xFFFFFF#24).getLsbD j = s.enc.acc.getLsbD j) ∧
      0xFFFFFF#24 ≠ s.enc.acc := by decide

/-- `FillerAppendsFillerBit` at counts 0, 23 and 24, with and without room. -/
theorem witness_filler :
    (encAt cfg0 0 0 []).enc.cnt.toNat ≤ 23 ∧ (encAt cfg0 0 23 []).enc.cnt.toNat ≤ 23 ∧
    (let s := encAt cfgSmall 0 24 []
     s.enc.cnt = 24 ∧ capAllows s.cfg.capOut (s.enc.out.length + 3) = true) ∧
    (let s := encAt cfgSmall 0 24 [1, 2, 3]
     s.enc.cnt = 24 ∧ capAllows s.cfg.capOut (s.enc.out.length + 3) = false) := by decide

/-- `AppendOutsideAccumulatorFaults` at 22, 23, 25 and 31. -/
theorem witness_append_outside :
    (∀ n : Cnt, n = 22 ∨ n = 23 ∨ n = 25 ∨ n = 31 →
      (encAt cfg0 0 n []).enc.est = .active ∧ 22 ≤ (encAt cfg0 0 n []).enc.cnt.toNat ∧
      (encAt cfg0 0 n []).enc.cnt ≠ 24) ∧
    (25 ≤ (encAt cfg0 0 25 []).enc.cnt.toNat ∧ 25 ≤ (encAt cfg0 0 31 []).enc.cnt.toNat) := by
  decide

/-- `DbyteAppendsByteOrHasNoStep`: the last byte that fits, the first that does not, an ended
session. -/
theorem witness_dbyte :
    (let s := decAt cfgSmall []
     s.dec.dst = .loading ∧ capAllows s.cfg.capIn (s.dec.inp.length + 1) = true) ∧
    (let s := decAt cfgSmall [1]
     s.dec.dst = .loading ∧ capAllows s.cfg.capIn (s.dec.inp.length + 1) = false) ∧
    ({ State.powerOn cfg0 with dec := ⟨[], [], 0, .done, .noError⟩ } : State).dec.dst
      ≠ .loading := by decide

/-- `EndedDecoderSessionAcceptsOnlyDstart` in both ended states, with an encoder command that has a
step. -/
theorem witness_ended_decoder :
    ({ State.powerOn cfg0 with dec := ⟨[], [], 0, .done, .noError⟩ } : State).dec.dst
      ≠ .loading ∧
    ∃ t, exec .efin { State.powerOn cfg0 with dec := ⟨[], [], 0, .failed, .invalidCode⟩ } = .next t :=
  ⟨by decide, _, rfl⟩

/-- `DrunScansToFirstStop`. -/
theorem witness_drun : (decAt cfg0 v1).dec.dst = .loading := by decide

/-- `DrunUnusedPatternIsInvalidCode` at group 0 (V11) and at group 1 (V12). -/
theorem witness_drun_unused :
    ((decAt cfg0 [3, 0, 0]).dec.dst = .loading ∧ cfg0.code.wf = true ∧
      Sym.streamEnd ∉ ([] : List Sym) ∧
      groupAt (digits cfg0.wMin [3, 0, 0]) 0 = some unusedPattern) ∧
    ((decAt cfg0 [0x18, 0, 0]).dec.dst = .loading ∧ Sym.streamEnd ∉ [Sym.ink0] ∧
      groupAt (digits cfg0.wMin [0x18, 0, 0]) 0 = some (cfg0.code.codeOf .ink0) ∧
      groupAt (digits cfg0.wMin [0x18, 0, 0]) 1 = some unusedPattern) := by decide

/-- The premise of the scan statements about every earlier group, for one symbol (V12, V16). -/
theorem witness_earlier_groups :
    ∀ k y, [Sym.lineEnd][k]? = some y →
      groupAt (digits cfg0.wMin [5, 0, 0]) k = some (cfg0.code.codeOf y) := by
  intro k y h
  cases k with
  | zero => cases h; rfl
  | succ k => simp at h

/-- `DrunWithoutTerminatorFails`: the digits end on a group boundary after one symbol (V16 with
`W_MIN = 0`), two digits remain (V15 with `W_MIN = 8`), one digit remains (V17). -/
theorem witness_drun_without_terminator :
    digitLen (cfgW 0).wMin [5, 0, 0] = 3 * [Sym.lineEnd].length ∧
    (3 * [Sym.ink0, .ink0].length < digitLen (cfgW 8).wMin [0, 0, 0] ∧
      digitLen (cfgW 8).wMin [0, 0, 0] < 3 * [Sym.ink0, .ink0].length + 3) ∧
    (3 * 5 < digitLen (cfgW 0).wMin [0x48, 0x83] ∧
      digitLen (cfgW 0).wMin [0x48, 0x83] < 3 * 5 + 3) := by decide

/-- `DrunStopsAtFirstStreamEnd`: a terminator at group 0 (V13) and after one symbol; and the unused
pattern after a terminator, for the second clause of `DrunUnusedPatternIsInvalidCode`. -/
theorem witness_drun_streamEnd :
    groupAt (digits cfg0.wMin [0x1F, 0, 0]) 0 = some (cfg0.code.codeOf .streamEnd) ∧
    groupAt (digits cfg0.wMin [0x1F, 0, 0]) 1 = some unusedPattern ∧
    (groupAt (digits cfg0.wMin [0x3D, 0, 0]) 0 = some (cfg0.code.codeOf .lineEnd) ∧
      groupAt (digits cfg0.wMin [0x3D, 0, 0]) 1 = some (cfg0.code.codeOf .streamEnd)) := by
  decide

/-- `DrunResultIgnoresLaterDigits`: V1 with either filler bit. -/
theorem witness_drun_ignores :
    (decAt cfg0 v1).dec.dst = .loading ∧ (decAt cfg0 v1').dec.dst = .loading ∧
    cfg0.code.wf = true ∧
    groupAt (digits cfg0.wMin v1) 6 = some (cfg0.code.codeOf .streamEnd) ∧
    (digits cfg0.wMin v1).take (3 * 6 + 3) = (digits cfg0.wMin v1').take (3 * 6 + 3) := by
  decide

/-- `DrunDoesNotReadFillerBit`. -/
theorem witness_drun_filler_bit : ∃ t, exec .drun (decAt cfg0 v1) = .next t := ⟨_, rfl⟩

/-- `DecoderSessionComputesDecode` where the bytes exactly fit, with the function `8L`; a width that
grows with the square of the length; and a width that is any function at all. -/
theorem witness_decoder_session :
    capAllows cfgSmall.capIn [(7 : Byte)].length = true ∧ cfgSmall.wMin 1 = (fun l => 8 * l) 1 ∧
    (cfg false (.table [] [0, 0, 1])).wMin 9 = 81 ∧
    (cfg false (.free 2)).wMin = Config.freePadWidth 2 := ⟨by decide, by decide, by decide, rfl⟩

/-- `DigitsAreInputBits`: the last digit a byte supplies and the last pad digit. -/
theorem witness_digits :
    15 < digitLen (cfgW 24).wMin [0x48, 0x83] ∧
    23 < digitLen (cfgW 24).wMin [0x48, 0x83] := by decide

/-- `BitlenIsThatOfLastNonzeroByte`: all bytes zero, and bit 2 of byte 0 of two bytes. -/
theorem witness_bitlen :
    (∀ b ∈ [(0 : Byte), 0], b = 0) ∧
    (0 < [(5 : Byte), 0].length ∧ (∀ j, 0 < j → byteAt [5, 0] j = 0) ∧ 2 < 8 ∧
      (byteAt [5, 0] 0).getLsbD 2 = true ∧
      ∀ j, 2 < j → (byteAt [5, 0] 0).getLsbD j = false) := by
  refine ⟨by decide, by decide, ?_, by decide, by decide, ?_⟩
  · intro j h
    match j, h with
    | 1, _ => rfl
    | j + 2, _ => simp [byteAt]
  · intro j h
    by_cases h8 : j < 8
    · revert h; revert h8; revert j; decide
    · exact BitVec.getLsbD_of_ge _ _ (by omega)

/-- `DrunIsItsGroupsOneByOne`: V1, where the scan ends at group 6. -/
theorem witness_drun_groups :
    ∃ t, exec .drun (decAt cfg0 v1) = .next t ∧
      3 * t.dec.dgrp + 3 ≤ digitLen cfg0.wMin v1 := ⟨_, rfl, by decide⟩

/-- `DecodeOfEncodeIsTheInstruction`: a command and a group. -/
theorem witness_encode :
    (Instr.epush 7).wf cfg0 = true ∧ Instr.symUnused.wf cfg0 = true := by decide

/-- `EncodeOfDecodeIsTheWord`: a word of each format. -/
theorem witness_decode :
    cfg0.code.wf = true ∧ decode cfg0 (.ecmd 0x0F) = .ok (.epush 7) ∧
    decode cfg0 (.dcmd 0x1FF) = .ok (.dbyte 0xFF) ∧
    decode cfg0 (.sym3 7) = .ok .symStreamEnd ∧ decode cfg0 (.fill1 0) = .ok .filler :=
  ⟨by decide, rfl, rfl, rfl, rfl⟩

/-- `ReservedCommandWordsAreRefused`: reserved words beside the legal ones. -/
theorem witness_reserved :
    (∀ w : BitVec 5, w = 0x01 ∨ w = 0x07 ∨ w = 0x11 ∨ w = 0x18 ∨ w = 0x1F →
      w ≠ 0b00000 ∧ w.extractLsb' 3 2 ≠ 0b01 ∧ w ≠ 0b10000) ∧
    ((0x0FF#10 ≠ 0b0000000000 ∧ (0x0FF#10).extractLsb' 8 2 ≠ 0b01#2 ∧ 0x0FF#10 ≠ 0b1000000000) ∧
     (0x201#10 ≠ 0b0000000000 ∧ (0x201#10).extractLsb' 8 2 ≠ 0b01#2 ∧ 0x201#10 ≠ 0b1000000000)) ∧
    (let s : State := { State.powerOn cfg0 with port := [.ecmd 0x18] }
     s.micro = none ∧ s.port = .ecmd 0x18 :: []) := by decide

/-- `CommandWordsAreNeverDataCodes`. -/
theorem witness_command_words :
    decode cfg0 (.ecmd 0x0D) = .ok (.epush 5) ∧ decode cfg0 (.dcmd 0x100) = .ok (.dbyte 0) :=
  ⟨rfl, rfl⟩

/-- `InvIsExactInverseOfCode`: two legal tables, and an entry of one. -/
theorem witness_inv :
    CodeTable.default.wf = true ∧ code2.wf = true ∧ code2.inv 0 = some .streamEnd := by decide

/-- `StepRunsDecodedInstruction`: a word of each format. -/
theorem witness_step_runs :
    (let s : State := { State.powerOn cfg0 with port := [.ecmd 0x0D] }
     s.micro = none ∧ s.port = .ecmd 0x0D :: [] ∧ decode s.cfg (.ecmd 0x0D) = .ok (.epush 5)) ∧
    (let s : State := { State.powerOn cfg0 with port := [.dcmd 0x148] }
     s.micro = none ∧ s.port = .dcmd 0x148 :: [] ∧ decode s.cfg (.dcmd 0x148) = .ok (.dbyte 0x48)) ∧
    (let s : State := { State.powerOn cfg0 with micro := some (.sym3 5) }
     s.micro = some (.sym3 5) ∧ decode s.cfg (.sym3 5) = .ok .symLineEnd) ∧
    (let s : State := { State.powerOn cfg0 with micro := some (.fill1 0) }
     s.micro = some (.fill1 0) ∧ decode s.cfg (.fill1 0) = .ok .filler) :=
  ⟨⟨rfl, rfl, rfl⟩, ⟨rfl, rfl, rfl⟩, ⟨rfl, rfl⟩, rfl, rfl⟩

/-- `StepWithoutInputChangesNothing`. -/
theorem witness_idle : (State.powerOn cfg0).micro = none ∧ (State.powerOn cfg0).port = [] := by
  decide

/-- `PresentedProgramRunsItsInstructions`: V3's encode, with one more word waiting. -/
theorem witness_program :
    let s : State := { State.powerOn cfg0 with port := [.ecmd 0x0E, .ecmd 0x10] ++ [.dcmd 0] }
    [Instr.epush 6, .efin].map inputOf = [.ecmd 0x0E, .ecmd 0x10].map some ∧ s.micro = none ∧
      s.port = [.ecmd 0x0E, .ecmd 0x10] ++ [.dcmd 0] := by decide

/-- `PowerOnMeetsInvariants`. -/
theorem witness_power_on : cfg0.wf = true ∧ cfgSmall.wf = true := by decide

/-- `StepKeepsInvariants`, `StepNeverFaultsUnderInvariants` and the last clause of
`AppendOutsideAccumulatorFaults`: a state in the middle of both sessions, with a command presented,
meets the invariants. -/
theorem witness_inv_mid_session :
    Inv { encAt cfg0 0x7 3 [] with dec := ⟨[5], [], 0, .loading, .noError⟩, port := [.ecmd 0x10] } := by
  refine ⟨⟨by decide, by decide, by decide, ?_, by simp [encAt], by simp [encAt],
      by simp [encAt], by decide⟩,
    ⟨by simp, by simp, by simp, by simp, by decide⟩, by simp [encAt], by simp [encAt],
    by decide, rfl⟩
  intro j h
  by_cases h24 : j < 24
  · revert h; revert h24; revert j; decide
  · exact BitVec.getLsbD_of_ge _ _ (by omega)

/-- `StepKeepsInvariants`, `StepKeepsLogsAndParameters`: that state has a step. -/
theorem witness_step_mid_session :
    ∃ t, step { encAt cfg0 0x7 3 [] with
      dec := ⟨[5], [], 0, .loading, .noError⟩, port := [.ecmd 0x10] } = .next t := ⟨_, rfl⟩

/-- `EachUnitLeavesTheOtherAlone`, `OnlyEfinAndScansCommit`, and the last clause of
`EpushUnknownSymbolFailsSession`: an instruction of each unit that commits. -/
theorem witness_exec_next :
    (∃ t, exec .efin (encAt cfg0 0x7 3 []) = .next t) ∧
    (∃ t, exec .drun (decAt cfg0 v1) = .next t) ∧
    ∃ t, exec .symStreamEnd (decAt cfg0 v1) = .next t := ⟨⟨_, rfl⟩, ⟨_, rfl⟩, _, rfl⟩

/-- `CommandsOfTheTwoUnitsCommute`: both orders have a step. -/
theorem witness_commute :
    (∃ u, execAll [.epush 4, .dbyte 7] (State.powerOn cfg0) = .next u) ∧
    ∃ u, execAll [.dbyte 7, .epush 4] (State.powerOn cfg0) = .next u := ⟨⟨_, rfl⟩, _, rfl⟩

/-- `OnlyNamedCausesEnterFailed`: each cause, from an open session. -/
theorem witness_failed :
    (∃ t, exec (.epush 7) (State.powerOn cfg0) = .next t ∧ t.enc.est = .failed) ∧
    (∃ t, exec .drun (decAt cfg0 [3]) = .next t ∧ t.dec.dst = .failed) ∧
    (∃ t, exec .symUnused (decAt cfg0 [3]) = .next t ∧ t.dec.dst = .failed) ∧
    (State.powerOn cfg0).enc.est ≠ .failed ∧ (decAt cfg0 [3]).dec.dst ≠ .failed :=
  ⟨⟨_, rfl, rfl⟩, ⟨_, rfl, rfl⟩, ⟨_, rfl, rfl⟩, by decide, by decide⟩

/-- `PushesCountAndFlushInEights` with room for exactly the one block that nine pushes flush. -/
theorem witness_pushes_count :
    (List.replicate 9 Sym.ink1) ≠ [] ∧
    capAllows cfgSmall.capOut (3 * (((List.replicate 9 Sym.ink1).length + 7) / 8 - 1)) = true := by
  decide

/-- `PushedBitsStandAtTheirStreamIndex`: V10. -/
theorem witness_pushed_bits :
    ∃ t, execAll (.estart :: pushAll (List.replicate 8 .ink1 ++ [.ink2])) (State.powerOn cfg0) =
      .next t := ⟨_, rfl⟩

/-- `EncoderSessionCommitsEncode` and `EncoderSessionFailsAtUnknownSymbol` with room for exactly the
artifact. -/
theorem witness_encoder_session :
    capAllows cfgSmall.capOut (3 * (((v1Syms ++ [Sym.streamEnd]).length + 7) / 8)) = true := by
  decide

/-- `ArtifactHoldsStreamInOrder`: the first and the last bit of V1's padded stream. -/
theorem witness_artifact_bits :
    0 < (paddedBits cfg0 (symbolBits cfg0 (v1Syms ++ [.streamEnd]))).length ∧
    23 < (paddedBits cfg0 (symbolBits cfg0 (v1Syms ++ [.streamEnd]))).length := by decide

/-- `RoundTripReturnsSymbols`: V1 with `W_MIN = 0`, where the digits end with the terminator. -/
theorem witness_round_trip :
    (decAt (cfgW 0) v1).dec.dst = .loading ∧ (cfgW 0).wf = true ∧
    Sym.streamEnd ∉ v1Syms ∧
    v1 = encodeArtifact (cfgW 0) (v1Syms ++ .streamEnd :: []) ∧
    3 * v1Syms.length + 3 = digitLen (cfgW 0).wMin v1 := by decide

/-- `RoundTripNeverReturnsWrongSymbols`: V14 (a) with `W_MIN` 0 and 8. -/
theorem witness_round_trip_fails :
    let c : Config := { cfgW 0 with code := code2 }
    c.wf = true ∧ Sym.streamEnd ∉ [Sym.ink0, .lineEnd] ∧
    [0x2F, 0x00, 0x00] = encodeArtifact c ([Sym.ink0, .lineEnd] ++ .streamEnd :: []) ∧
    digitLen (cfgW 0).wMin [0x2F, 0, 0] < 3 * 2 + 3 ∧
    digitLen (cfgW 8).wMin [0x2F, 0, 0] < 3 * 2 + 3 := by decide

/-- `RoundTripConditionSuffices`: a filler bit 1, a terminator ending in 1, a width that just reaches
it and the width `8L`. -/
theorem witness_round_trip_condition :
    (let c : Config := { cfgW 0 with code := code2, fillerBit := true }
     3 * 2 + 2 ≤ 9 ∧
      (paddedBits c (symbolBits c ([Sym.ink0, .lineEnd] ++ .streamEnd :: [])))[9]? = some true) ∧
    CodeTable.default.streamEnd.getLsbD 2 = true ∧
    3 * 2 + 3 ≤ (cfgW 9).wMin 3 ∧ cfg0.wMin 3 = 8 * 3 := by decide

/-- `GridRoundTripThroughBothUnits`: V1 in hardware with room for exactly its artifact. -/
theorem witness_grid :
    let c : Config := { cfg0 with capOut := some 3, capIn := some 3 }
    let rows := [[Sym.ink0, .ink4], [.ink4, .ink0]]
    c.wf = true ∧ gridWf 2 rows = true ∧ c.code.streamEnd.getLsbD 2 = true ∧
    capAllows c.capOut (3 * ((rows.length * (2 + 1) + 8) / 8)) = true ∧
    capAllows c.capIn (3 * ((rows.length * (2 + 1) + 8) / 8)) = true := by decide

/-- `FrontEndInvertsInkCharacters`: legal characters, and one that is no ink character. -/
theorem witness_front_end :
    let t : TextChars := ⟨'#', '+', '-', '.', ' ', '|'⟩
    t.wf = true ∧ isInk .ink4 = true ∧ 'x' ∉ [t.ink0, t.ink1, t.ink2, t.ink3, t.ink4] := by decide

/-- `PushesAndLoadsAreInvisible`: a push that flushes, and a load. The push is also one of a sid
other than 7, for the second clause of `EpushUnknownSymbolFailsSession`. -/
theorem witness_invisible :
    (∃ t, exec (.epush (sidOf .ink0)) (encAt cfg0 0x58DCA0 24 []) = .next t) ∧
    ∃ t, exec (.dbyte 7) (decAt cfg0 []) = .next t := ⟨⟨_, rfl⟩, _, rfl⟩

end Sys2Proof.Tests
end

/-! ## Proofs: the encoding of commands and codes, and the boundary functions (30_encoding.md)

### The fields of a command word (R77, R78) -/

namespace Sys2Proof

/-- A word is the concatenation of two fields exactly where its fields are those two. -/
theorem eq_append_iff_fields {m n : Nat} (w : BitVec (m + n)) (hi : BitVec m) (lo : BitVec n) :
    w = hi ++ lo ↔ w.extractLsb' n m = hi ∧ w.extractLsb' 0 n = lo := by
  constructor
  · rintro rfl
    exact ⟨BitVec.extractLsb'_append_eq_left, BitVec.extractLsb'_append_eq_right⟩
  · rintro ⟨rfl, rfl⟩
    exact BitVec.extractLsb'_append_extractLsb'.symm

/-- The table of the encoder command words (R77): the operation and the operand field of `ESTART` and
`EFIN` together are one whole word. -/
theorem decodeEcmd_table (w : BitVec 5) : decodeEcmd w =
    if w = 0b00000 then .ok .estart
    else if w.extractLsb' 3 2 = 0b01 then .ok (.epush (w.extractLsb' 0 3))
    else if w = 0b10000 then .ok .efin
    else .error (.reservedEcmd w) := by
  have hstart : w = 0b00000 ↔ w.extractLsb' 3 2 = 0b00 ∧ w.extractLsb' 0 3 = 0 :=
    eq_append_iff_fields w 0b00#2 0#3
  have hfin : w = 0b10000 ↔ w.extractLsb' 3 2 = 0b10 ∧ w.extractLsb' 0 3 = 0 :=
    eq_append_iff_fields w 0b10#2 0#3
  simp only [decodeEcmd, hstart, hfin]

/-- The table of the decoder command words (R78). -/
theorem decodeDcmd_table (w : BitVec 10) : decodeDcmd w =
    if w = 0b0000000000 then .ok .dstart
    else if w.extractLsb' 8 2 = 0b01 then .ok (.dbyte (w.extractLsb' 0 8))
    else if w = 0b1000000000 then .ok .drun
    else .error (.reservedDcmd w) := by
  have hstart : w = 0b0000000000 ↔ w.extractLsb' 8 2 = 0b00 ∧ w.extractLsb' 0 8 = 0 :=
    eq_append_iff_fields w 0b00#2 0#8
  have hrun : w = 0b1000000000 ↔ w.extractLsb' 8 2 = 0b10 ∧ w.extractLsb' 0 8 = 0 :=
    eq_append_iff_fields w 0b10#2 0#8
  simp only [decodeDcmd, hstart, hrun]

theorem decodeEcmd_of_reserved {w : BitVec 5} (hstart : w ≠ 0b00000)
    (hpush : w.extractLsb' 3 2 ≠ 0b01) (hfin : w ≠ 0b10000) :
    decodeEcmd w = .error (.reservedEcmd w) := by
  rw [decodeEcmd_table, if_neg hstart, if_neg hpush, if_neg hfin]

theorem decodeDcmd_of_reserved {w : BitVec 10} (hstart : w ≠ 0b0000000000)
    (hbyte : w.extractLsb' 8 2 ≠ 0b01) (hrun : w ≠ 0b1000000000) :
    decodeDcmd w = .error (.reservedDcmd w) := by
  rw [decodeDcmd_table, if_neg hstart, if_neg hbyte, if_neg hrun]

/-- Settles O34: each word's operation and operand field are read as one word where the operand has
to be 0. -/
theorem commandWordsDecodeByTheirTables : Obligations.CommandWordsDecodeByTheirTables :=
  fun _ => ⟨decodeEcmd_table, decodeDcmd_table⟩

/-! ### The step on a word the host presents (R82) -/

namespace Machine

theorem fetch_ecmd {s : State} {w : BitVec 5} {rest : List HostInput} (hm : s.micro = none)
    (hp : s.port = .ecmd w :: rest) : fetch s = .word (.ecmd w) { s with port := rest } := by
  simp only [fetch, hm, hp]

theorem fetch_dcmd {s : State} {w : BitVec 10} {rest : List HostInput} (hm : s.micro = none)
    (hp : s.port = .dcmd w :: rest) : fetch s = .word (.dcmd w) { s with port := rest } := by
  simp only [fetch, hm, hp]

/-- A fetched word that is no instruction is refused (R82, R180). -/
theorem step_of_decode_error {s t : State} {w : CodeWord} {e : DecodeError}
    (hf : fetch s = .word w t) (hd : decode t.cfg w = .error e) :
    step s = .refused (refusalOf e) := by
  simp only [step, hf, hd]

/-- Settles O33: the decoder rejects the word by the tables of R77 and R78, and the step refuses it. -/
theorem reservedCommandWordsAreRefused : Obligations.ReservedCommandWordsAreRefused := by
  intro s rest hm
  constructor
  · intro w hp hstart hpush hfin
    exact step_of_decode_error (fetch_ecmd hm hp) (decodeEcmd_of_reserved hstart hpush hfin)
  · intro w hp hstart hbyte hrun
    exact step_of_decode_error (fetch_dcmd hm hp) (decodeDcmd_of_reserved hstart hbyte hrun)

end Machine

/-! ### `CODE` and `INV` (R72, R73) -/

theorem mem_allSyms (y : Sym) : y ∈ allSyms := by
  cases y <;> decide

theorem entries_eq_map_codeOf (t : CodeTable) : t.entries = allSyms.map t.codeOf := rfl

theorem mem_entries_iff_exists_codeOf {t : CodeTable} {p : Sym3} :
    p ∈ t.entries ↔ ∃ y, t.codeOf y = p := by
  simp only [entries_eq_map_codeOf, List.mem_map, mem_allSyms, true_and]

/-- Whatever the table, `INV` looks a pattern up among the codes (R73). -/
theorem codeOf_of_inv_eq_some {t : CodeTable} {p : Sym3} {y : Sym} (h : t.inv p = some y) :
    t.codeOf y = p := by
  unfold CodeTable.inv at h
  split_ifs at h
  all_goals
    cases h
    exact Eq.symm ‹_›

/-- Whatever the table, `INV` gives none exactly outside the codes (R73). -/
theorem inv_eq_none_iff_not_mem_entries {t : CodeTable} {p : Sym3} :
    t.inv p = none ↔ p ∉ t.entries := by
  constructor
  · intro h hp
    unfold CodeTable.inv at h
    split_ifs at h
    simp_all [CodeTable.entries]
  · intro hp
    cases h : t.inv p with
    | none => rfl
    | some y => exact absurd (mem_entries_iff_exists_codeOf.2 ⟨y, codeOf_of_inv_eq_some h⟩) hp

/-- R7: a legal `CODE` is injective. -/
theorem codeOf_injective {t : CodeTable} (h : t.wf = true) : Function.Injective t.codeOf := by
  have hn : (allSyms.map t.codeOf).Nodup := by
    simp only [CodeTable.wf, Bool.and_eq_true, decide_eq_true_eq] at h
    exact h.1
  exact fun y z hyz => List.inj_on_of_nodup_map hn (mem_allSyms y) (mem_allSyms z) hyz

/-- R7: the range of a legal `CODE` "is exactly the other seven patterns". -/
theorem mem_entries_iff_ne_unusedPattern {t : CodeTable} (h : t.wf = true) {p : Sym3} :
    p ∈ t.entries ↔ p ≠ unusedPattern := by
  obtain ⟨g, rfl⟩ := Laws.legal_table_is_ofChoices t h
  have hperm : (CodeTable.ofChoices g).entries.Perm usedPatterns :=
    Laws.arrangement_perm g 7 usedPatterns rfl
  have hused : ∀ q : Sym3, q ∈ usedPatterns ↔ q ≠ unusedPattern := by decide
  rw [hperm.mem_iff, hused]

theorem inv_codeOf {t : CodeTable} (h : t.wf = true) (y : Sym) : t.inv (t.codeOf y) = some y := by
  cases hi : t.inv (t.codeOf y) with
  | none =>
    exact absurd (mem_entries_iff_exists_codeOf.2 ⟨y, rfl⟩) (inv_eq_none_iff_not_mem_entries.1 hi)
  | some z => rw [codeOf_injective h (codeOf_of_inv_eq_some hi)]

theorem inv_eq_none_iff {t : CodeTable} (h : t.wf = true) {p : Sym3} :
    t.inv p = none ↔ p = unusedPattern := by
  rw [inv_eq_none_iff_not_mem_entries, mem_entries_iff_ne_unusedPattern h, not_not]

/-- Settles O36: a legal `CODE` is injective, and its seven codes are all patterns but one. -/
theorem invIsExactInverseOfCode : Obligations.InvIsExactInverseOfCode :=
  fun _ h => ⟨inv_codeOf h, fun _ _ => codeOf_of_inv_eq_some, fun _ => inv_eq_none_iff h⟩

/-! ### The front end and the text (R87, R154) -/

namespace Machine

@[simp] theorem text_singleton (chars : TextChars) (sid : Sid) :
    text chars [sid] = charOfSid chars sid :=
  List.flatMap_singleton _ _

/-- Every ink has one character (R154). -/
theorem exists_char_of_isInk (chars : TextChars) {y : Sym} (hy : isInk y = true) :
    ∃ c, charOfSid chars (sidOf y) = [c] := by
  cases y with
  | ink0 | ink1 | ink2 | ink3 | ink4 => exact ⟨_, rfl⟩
  | lineEnd | streamEnd => cases hy

/-- R7: the ink characters are distinct and none is the line break. -/
theorem nodup_of_wf {chars : TextChars} (hwf : chars.wf = true) :
    ([chars.ink0, chars.ink1, chars.ink2, chars.ink3, chars.ink4] ++ [chars.newline]).Nodup :=
  of_decide_eq_true hwf

/-- Under distinct characters the front end gives an ink's character the ink's sid (R87). -/
theorem frontEnd_of_charOfSid {chars : TextChars} (hwf : chars.wf = true) {y : Sym} {c : Char}
    (hy : isInk y = true) (hc : charOfSid chars (sidOf y) = [c]) :
    frontEnd chars (.char c) = sidOf y := by
  have hne := (nodup_of_wf hwf).imp Ne.symm
  simp only [List.cons_append, List.pairwise_cons, List.forall_mem_cons] at hne
  obtain ⟨h0, h1, h2, h3, -, -⟩ := hne
  cases y with
  | ink0 => cases hc; simp [frontEnd, sidOf]
  | ink1 => cases hc; simp [frontEnd, sidOf, h0]
  | ink2 => cases hc; simp [frontEnd, sidOf, h0, h1]
  | ink3 => cases hc; simp [frontEnd, sidOf, h0, h1, h2]
  | ink4 => cases hc; simp [frontEnd, sidOf, h0, h1, h2, h3]
  | lineEnd | streamEnd => cases hy

/-- A character that is no ink's has the unassigned sid 7 (R83, R87). -/
theorem frontEnd_of_not_ink {chars : TextChars} {c : Char}
    (hc : c ∉ [chars.ink0, chars.ink1, chars.ink2, chars.ink3, chars.ink4]) :
    frontEnd chars (.char c) = 7 := by
  simp only [List.mem_cons, List.not_mem_nil, or_false, not_or] at hc
  obtain ⟨h0, h1, h2, h3, h4⟩ := hc
  simp only [frontEnd, h0, h1, h2, h3, h4, if_false]

/-- R7: the line break is no ink character. -/
theorem newline_not_ink {chars : TextChars} (hwf : chars.wf = true) :
    chars.newline ∉ [chars.ink0, chars.ink1, chars.ink2, chars.ink3, chars.ink4] :=
  fun hm => List.disjoint_of_nodup_append (nodup_of_wf hwf) hm List.mem_cons_self

/-- Settles O58: a case for each ink, whose character differs from every one tested before it. -/
theorem frontEndInvertsInkCharacters : Obligations.FrontEndInvertsInkCharacters := by
  intro chars hwf
  refine ⟨⟨?_, ?_, ?_, ?_, ?_⟩, ?_, fun c => frontEnd_of_not_ink,
    frontEnd_of_not_ink (newline_not_ink hwf), rfl, rfl⟩
  · exact frontEnd_of_charOfSid hwf (y := .ink0) rfl rfl
  · exact frontEnd_of_charOfSid hwf (y := .ink1) rfl rfl
  · exact frontEnd_of_charOfSid hwf (y := .ink2) rfl rfl
  · exact frontEnd_of_charOfSid hwf (y := .ink3) rfl rfl
  · exact frontEnd_of_charOfSid hwf (y := .ink4) rfl rfl
  · intro y hy
    obtain ⟨c, hc⟩ := exists_char_of_isInk chars hy
    exact ⟨c, by rw [text_singleton, hc], frontEnd_of_charOfSid hwf hy hc⟩

/-! ### The status outputs (R28, R88) -/

@[simp] theorem hostView_s0 (s : State) : (hostView s).s0 = estCode s.enc.est := rfl
@[simp] theorem hostView_s1 (s : State) : (hostView s).s1 = eerrCode s.enc.eerr := rfl
@[simp] theorem hostView_s2 (s : State) : (hostView s).s2 = dstCode s.dec.dst := rfl
@[simp] theorem hostView_s3 (s : State) : (hostView s).s3 = derrCode s.dec.derr := rfl

theorem estCode_ne_never (e : EncStatus) : estCode e ≠ 0b11 := by
  cases e <;> decide

theorem eerrCode_ne_never (e : EncError) : eerrCode e ≠ 0b10 ∧ eerrCode e ≠ 0b11 := by
  cases e <;> decide

theorem dstCode_ne_never (d : DecStatus) : dstCode d ≠ 0b11 := by
  cases d <;> decide

theorem derrCode_ne_never (d : DecError) : derrCode d ≠ 0b11 := by
  cases d <;> decide

/-- Settles O60: a register's value gives its code by R88's table, and no value gives one marked
never. -/
theorem statusOutputsCarryTheirCodes : Obligations.StatusOutputsCarryTheirCodes := by
  intro s
  simp only [hostView_s0, hostView_s1, hostView_s2, hostView_s3]
  obtain ⟨heerr2, heerr3⟩ := eerrCode_ne_never s.enc.eerr
  refine ⟨?_, ?_, ?_, estCode_ne_never _, ?_, ?_, heerr2, heerr3, ?_, ?_, ?_, dstCode_ne_never _,
    ?_, ?_, ?_, derrCode_ne_never _⟩
  all_goals exact fun h => h ▸ rfl

end Machine

end Sys2Proof

/-! ## Proofs: the encoder commands (40_encoder.md)

### What a push refuses (R103, R111) -/

namespace Sys2Proof.Machine

/-- A sequence is refused where its first part is, or its second part in the state the first leaves. -/
theorem andThen_eq_refused {x : Host.Outcome State Fault Refusal}
    {f : State → Host.Outcome State Fault Refusal} {r : Refusal} :
    andThen x f = .refused r ↔ x = .refused r ∨ ∃ u, x = .next u ∧ f u = .refused r := by
  cases x <;> simp

/-- `OUT` has no room for a block exactly under the inequality of R103, which a finite `CAP_OUT` alone
can meet. -/
theorem outHasRoom_eq_false {s : State} :
    outHasRoom s = false ↔ ∃ c, s.cfg.capOut = some c ∧ c < s.enc.out.length + 3 := by
  cases h : s.cfg.capOut <;> simp [outHasRoom, capAllows, blockBytes, h]

theorem flush_eq_refused_iff {s : State} {r : Refusal} :
    flush s = .refused r ↔ outHasRoom s = false ∧ r = .noCapacity := by
  cases h : outHasRoom s <;> simp [flush, h, eq_comm (a := r)]

/-- The flush test is refused exactly where a flush is due and has no room. -/
theorem flushIfFull_eq_refused {s : State} {r : Refusal} :
    flushIfFull s = .refused r ↔
      s.enc.cnt = 24#5 ∧ outHasRoom s = false ∧ r = .noCapacity := by
  by_cases h : s.enc.cnt = 24#5
  · simp only [flushIfFull_of_eq s h, flush_eq_refused_iff, h, true_and]
  · simp [flushIfFull_of_ne s h, h]

theorem addBits_ne_refused (bits : List Bool) (s : State) (r : Refusal) :
    addBits bits s ≠ .refused r := by
  unfold addBits
  split <;> nofun

/-- The flush test alone can refuse a push: after it a known symbol is appended and an unknown one
enters failure (R101). -/
theorem pushSid_eq_refused {sid : Sid} {s : State} {r : Refusal} :
    pushSid sid s = .refused r ↔ flushIfFull s = .refused r := by
  rw [pushSid, andThen_eq_refused]
  refine or_iff_left ?_
  rintro ⟨u, -, hu⟩
  cases h : symOfSid sid with
  | none => simp [h] at hu
  | some y => exact addBits_ne_refused _ u r (by simpa [h] using hu)

theorem exec_epush_of_active (sid : Sid) {s : State} (h : s.enc.est = .active) :
    exec (.epush sid) s = pushSid sid s :=
  if_pos h

theorem exec_epush_of_ended (sid : Sid) {s : State} (h : s.enc.est ≠ .active) :
    exec (.epush sid) s = .refused .sessionEnded :=
  if_neg h

theorem exec_efin_of_ended {s : State} (h : s.enc.est ≠ .active) :
    exec .efin s = .refused .sessionEnded :=
  if_neg h

/-- The two refusals of a push: an ended session (R111), and in an open one a flush that is due and has
no room (R103). The sid is in neither. -/
theorem exec_epush_eq_refused {sid : Sid} {s : State} {r : Refusal} :
    exec (.epush sid) s = .refused r ↔
      (s.enc.est ≠ .active ∧ r = .sessionEnded) ∨
      (s.enc.est = .active ∧ s.enc.cnt = 24#5 ∧ outHasRoom s = false ∧ r = .noCapacity) := by
  by_cases h : s.enc.est = .active
  · rw [exec_epush_of_active sid h, pushSid_eq_refused, flushIfFull_eq_refused]
    simp [h]
  · rw [exec_epush_of_ended sid h]
    simp [h, eq_comm (a := r)]

/-- Settles O7: the refusals of a push do not depend on its sid, and one for capacity needs a finite
`CAP_OUT`. -/
theorem epushWithoutRoomHasNoStep : Obligations.EpushWithoutRoomHasNoStep := by
  intro s sid
  constructor
  · intro hactive hfull hcap
    exact exec_epush_eq_refused.2 (.inr ⟨hactive, hfull, outHasRoom_eq_false.2 hcap, rfl⟩)
  · intro hunbounded href
    rcases exec_epush_eq_refused.1 href with ⟨-, hr⟩ | ⟨-, -, hroom, -⟩
    · cases hr
    · obtain ⟨c, hc, -⟩ := outHasRoom_eq_false.1 hroom
      rw [hunbounded] at hc
      cases hc

/-! ### The start of a session (R100, R111) -/

/-- `ESTART` tests nothing: it opens a session in every state (R100). -/
theorem exec_estart (s : State) : exec .estart s = .next (openEnc s) := rfl

/-- Settles O2: the first row of the table of encoder command words, and `openEnc`, which leaves the
encoder as power-on does. -/
theorem estartOpensEmptySession : Obligations.EstartOpensEmptySession :=
  fun s => ⟨(decodeEcmd_table 0b00000).trans (if_pos rfl), exec_estart s, exec_estart s⟩

/-- Settles O8: both commands test the session's status first, and `ESTART` and the reset input do
not. -/
theorem endedEncoderSessionAcceptsOnlyEstart : Obligations.EndedEncoderSessionAcceptsOnlyEstart := by
  intro s hended
  refine ⟨fun sid => exec_epush_of_ended sid hended, exec_efin_of_ended hended,
    ⟨openEnc s, exec_estart s, ?_⟩, ?_⟩
  · rw [openEnc_enc]
  · rw [afterRst_enc]

end Sys2Proof.Machine

/-! ## Proofs: the decoder commands (42_decoder.md)

### The start of a session and its bytes (R140, R141, R160) -/

namespace Sys2Proof.Machine

/-- `DSTART` tests nothing: it opens a session in every state (R140). -/
theorem exec_dstart (s : State) : exec .dstart s = .next (openDec s) := rfl

/-- Settles O3: the first row of the table of decoder command words, and `openDec`, which leaves the
decoder as power-on does. -/
theorem dstartOpensEmptySession : Obligations.DstartOpensEmptySession :=
  fun s => ⟨(decodeDcmd_table 0b0000000000).trans (if_pos rfl), exec_dstart s, exec_dstart s⟩

theorem exec_dbyte_of_loading (b : Byte) {s : State} (h : s.dec.dst = .loading) :
    exec (.dbyte b) s = if inpHasRoom s then .next (loadByte b s) else .refused .noCapacity :=
  if_pos h

theorem exec_dbyte_of_ended (b : Byte) {s : State} (h : s.dec.dst ≠ .loading) :
    exec (.dbyte b) s = .refused .sessionEnded :=
  if_neg h

theorem exec_drun_of_ended {s : State} (h : s.dec.dst ≠ .loading) :
    exec .drun s = .refused .sessionEnded :=
  if_neg h

/-- R78: the word `01bbbbbbbb` has the operation 01, which starts no other command's word, and the
operand `b`. -/
theorem decodeDcmd_dbyteWord (b : Byte) : decodeDcmd (dbyteWord b) = .ok (.dbyte b) := by
  obtain ⟨hop, hoperand⟩ := (eq_append_iff_fields (dbyteWord b) 0b01 b).1 rfl
  have hstart : dbyteWord b ≠ 0b0000000000 := by
    intro h
    rw [h] at hop
    exact absurd hop (by decide)
  rw [decodeDcmd_table, if_neg hstart, if_pos hop, hoperand]

/-- Settles O17: the session's status is tested before the capacity, and the word's two fields are
the operation and the byte. -/
theorem dbyteAppendsByteOrHasNoStep : Obligations.DbyteAppendsByteOrHasNoStep := by
  intro s b
  refine ⟨?_, ?_, exec_dbyte_of_ended b, decodeDcmd_dbyteWord b⟩
  · intro hload hroom
    exact exec_dbyte_eq_next.2 ⟨hload, hroom, rfl⟩
  · intro hload hfull
    rw [exec_dbyte_of_loading b hload, inpHasRoom, hfull]
    rfl

/-- A push leaves the decoder unit alone, whether it appends, flushes first or fails (R60). -/
theorem exec_epush_dec {sid : Sid} {s t : State} (h : exec (.epush sid) s = .next t) :
    t.dec = s.dec := by
  obtain ⟨-, ⟨-, rfl⟩ | ⟨y, -, ⟨-, -, rfl⟩ | ⟨-, -, rfl⟩⟩⟩ := exec_epush_eq_next h <;> rfl

/-- `EFIN` leaves the decoder unit alone: its fillers and its commit are the encoder's (R60). -/
theorem exec_efin_dec {s t : State} (h : exec .efin s = .next t) : t.dec = s.dec := by
  obtain ⟨-, u, hfill, rfl⟩ := exec_efin_eq_next.1 h
  rw [commitArtifact_dec, fillTimes_frame hfill]

/-- Settles O18: both commands test the session's status first, `DSTART` and the reset input do not,
and no encoder command writes the decoder unit. -/
theorem endedDecoderSessionAcceptsOnlyDstart :
    Obligations.EndedDecoderSessionAcceptsOnlyDstart := by
  intro s hended
  refine ⟨fun b => exec_dbyte_of_ended b hended, exec_drun_of_ended hended,
    ⟨openDec s, exec_dstart s, ?_⟩, ?_, ⟨rfl, rfl, hostView_s2 s, hostView_s3 s⟩, ?_⟩
  · rw [openDec_dec]
  · rw [afterRst_dec]
  · rintro i t (rfl | ⟨sid, rfl⟩ | rfl) h
    · cases h
      exact openEnc_dec s
    · exact exec_epush_dec h
    · exact exec_efin_dec h

/-! ### What a scan's end writes (R148) -/

/-- The end of a scan releases `IN`, keeps `DOUT` and `DGRP`, and writes nothing but the decoder
unit and its log. -/
theorem endScan_frame (e : ScanEnd) (s : State) :
    endScan e s = { s with
      dlog := (endScan e s).dlog,
      dec := ⟨[], s.dec.dout, s.dec.dgrp, (endScan e s).dec.dst, (endScan e s).dec.derr⟩ } := by
  cases e <;> rfl

/-- `DRUN` in terms of its scan's result. -/
theorem exec_drun_of_scan {s : State} {g : Nat} {dout : List Sid} {how : ScanEnd}
    (hload : s.dec.dst = .loading)
    (hscan : scan s.cfg.code 0 [] (digits s.cfg.wMin s.dec.inp) = ⟨g, dout, how⟩) :
    exec .drun s = .next (endScan how { s with dec := { s.dec with dout := dout, dgrp := g } }) :=
  exec_drun_eq_next.2 ⟨hload, by rw [runScan, hscan]⟩

/-- Settles O19: the four ends of `scan_spec`, from group 0 with nothing emitted, and what `endScan`
writes at each. -/
theorem drunScansToFirstStop : Obligations.DrunScansToFirstStop := by
  intro s hload
  obtain ⟨dout, how, hscan, hbefore, hstop⟩ :=
    scan_spec s.cfg.code (digits s.cfg.wMin s.dec.inp) 0 []
  rw [Nat.zero_add, List.nil_append] at hscan
  refine ⟨dout.length, dout, _, _, _,
    (exec_drun_of_scan hload hscan).trans (congrArg _ (endScan_frame how _)), rfl, hbefore, ?_⟩
  obtain ⟨hlen, rfl⟩ | ⟨hlt, hle, rfl⟩ | ⟨hnone, rfl⟩ | ⟨hend, rfl⟩ := hstop
  · exact .inl ⟨hlen, rfl, rfl, rfl⟩
  · exact .inr (.inl ⟨hlt, hle, rfl, rfl, rfl⟩)
  · exact .inr (.inr (.inl ⟨hnone, rfl, rfl, rfl⟩))
  · exact .inr (.inr (.inr ⟨hend, rfl, rfl, rfl⟩))

/-! ### Scanning a digit string whose first groups are known (R145, R147) -/

/-- A digit string has a group 0 exactly where three digits stand at its front. -/
theorem groupAt_zero_eq_some {ds : List Bool} {p : Sym3} :
    groupAt ds 0 = some p ↔
      ∃ c0 c1 c2 rest, ds = c0 :: c1 :: c2 :: rest ∧ groupVec c0 c1 c2 = p := by
  constructor
  · intro h
    match ds with
    | [] | [_] | [_, _] => simp [groupAt] at h
    | c0 :: c1 :: c2 :: rest =>
      rw [groupAt_zero, Option.some.injEq] at h
      exact ⟨c0, c1, c2, rest, rfl, h⟩
  · rintro ⟨c0, c1, c2, rest, rfl, rfl⟩
    exact groupAt_zero c0 c1 c2 rest

/-- With `n` groups taken off a digit string, its groups are the later ones. -/
theorem groupAt_drop (ds : List Bool) (n g : Nat) :
    groupAt (ds.drop (3 * n)) g = groupAt ds (n + g) := by
  have hexists : 3 * g + 3 ≤ ds.length - 3 * n ↔ 3 * (n + g) + 3 ≤ ds.length := by omega
  simp only [groupAt, List.length_drop, hexists, List.getD_eq_getElem?_getD, List.getElem?_drop,
    Nat.mul_add, Nat.add_assoc]

/-- A scan passes the groups that are codes of symbols other than the terminator, emits their sids
and goes on at the digits after them. -/
theorem scan_of_symbols {t : CodeTable} (hwf : t.wf = true) {syms : List Sym} {ds : List Bool}
    (hterm : Sym.streamEnd ∉ syms)
    (hgroups : ∀ k y, syms[k]? = some y → groupAt ds k = some (t.codeOf y))
    (g : Nat) (dout : List Sid) :
    scan t g dout ds =
      scan t (g + syms.length) (dout ++ syms.map sidOf) (ds.drop (3 * syms.length)) := by
  induction syms generalizing ds g dout with
  | nil => simp
  | cons y syms ih =>
    obtain ⟨hy, hterm⟩ := List.ne_and_not_mem_of_not_mem_cons hterm
    obtain ⟨c0, c1, c2, rest, rfl, hcode⟩ := groupAt_zero_eq_some.1 (hgroups 0 y rfl)
    have hrest : ∀ k z, syms[k]? = some z → groupAt rest k = some (t.codeOf z) := by
      intro k z hz
      rw [← groupAt_succ c0 c1 c2]
      exact hgroups (k + 1) z hz
    rw [scan_group, hcode, inv_codeOf hwf, groupAction_of_ne hy.symm]
    simp only [ih hterm hrest, List.length_cons, List.map_cons, List.append_assoc,
      List.singleton_append, Nat.mul_add, Nat.mul_one, List.drop_succ_cons, Nat.add_assoc,
      Nat.add_comm 1]

section

variable {s : State} {syms : List Sym} (hload : s.dec.dst = .loading)
  (hwf : s.cfg.code.wf = true) (hterm : Sym.streamEnd ∉ syms)
  (hgroups : ∀ k y, syms[k]? = some y →
    groupAt (digits s.cfg.wMin s.dec.inp) k = some (s.cfg.code.codeOf y))

include hload hwf hterm hgroups

/-- After the groups of known symbols `DRUN` does what the scan of the digits left does. -/
theorem exec_drun_of_symbols {how : ScanEnd}
    (hrest : ∀ dout, scan s.cfg.code syms.length dout
      ((digits s.cfg.wMin s.dec.inp).drop (3 * syms.length)) = ⟨syms.length, dout, how⟩) :
    exec .drun s = .next (endScan how { s with
      dec := { s.dec with dout := syms.map sidOf, dgrp := syms.length } }) := by
  refine exec_drun_of_scan hload ?_
  rw [scan_of_symbols hwf hterm hgroups, Nat.zero_add, List.nil_append, hrest]

/-- `DRUN` ends at the group after those of known symbols, where that group is the terminator or no
code. What stands in the digits behind it is not in the result. -/
theorem exec_drun_of_stop {p : Sym3} {how : ScanEnd}
    (hgroup : groupAt (digits s.cfg.wMin s.dec.inp) syms.length = some p)
    (hstop : groupAction (s.cfg.code.inv p) = .stop how) :
    exec .drun s = .next (endScan how { s with
      dec := { s.dec with dout := syms.map sidOf, dgrp := syms.length } }) := by
  refine exec_drun_of_symbols hload hwf hterm hgroups fun dout => ?_
  rw [← Nat.add_zero syms.length, ← groupAt_drop] at hgroup
  obtain ⟨c0, c1, c2, rest, hds, hp⟩ := groupAt_zero_eq_some.1 hgroup
  rw [hds, scan_group, hp, hstop]

end

/-- Settles O20: the scan stops at the unused pattern as at no code, and at the terminator whatever
follows. -/
theorem drunUnusedPatternIsInvalidCode : Obligations.DrunUnusedPatternIsInvalidCode := by
  intro s syms hload hwf hterm hgroups
  constructor
  · intro hunused
    refine exec_drun_of_stop (how := .invalidCode) hload hwf hterm hgroups hunused ?_
    rw [(inv_eq_none_iff hwf).2 rfl]
    rfl
  · intro g _ hend _
    refine exec_drun_of_stop (how := .success) hload hwf hterm hgroups hend ?_
    rw [inv_codeOf hwf]
    rfl

/-- Settles O21: no digit is left after the known groups, or one or two digits are. -/
theorem drunWithoutTerminatorFails : Obligations.DrunWithoutTerminatorFails := by
  intro s syms hload hwf hterm hgroups
  have hleft : ((digits s.cfg.wMin s.dec.inp).drop (3 * syms.length)).length =
      digitLen s.cfg.wMin s.dec.inp - 3 * syms.length := by
    rw [List.length_drop, length_digits]
  constructor
  · intro hlen
    refine exec_drun_of_symbols (how := .endOfDigits) hload hwf hterm hgroups fun dout => ?_
    rw [List.eq_nil_of_length_eq_zero (hleft.trans (by omega)), scan]
  · intro hlt hle
    refine exec_drun_of_symbols (how := .invalidCode) hload hwf hterm hgroups fun dout => ?_
    obtain hone | htwo : digitLen s.cfg.wMin s.dec.inp - 3 * syms.length = 1 ∨
        digitLen s.cfg.wMin s.dec.inp - 3 * syms.length = 2 := by omega
    · obtain ⟨a, hds⟩ := List.length_eq_one_iff.1 (hleft.trans hone)
      rw [hds, scan]
    · obtain ⟨a, b, hds⟩ := List.length_eq_two.1 (hleft.trans htwo)
      rw [hds, scan]

end Sys2Proof.Machine

/-! ## Proofs: errors and failure entry (60_exceptions.md)

### `UnknownSymbol` (R171) -/

namespace Sys2Proof.Machine

/-- The flush test answers where no flush is due, and where one is due and has room (R121, R122). -/
theorem exists_flushIfFull_eq_next {s : State} (hroom : s.enc.cnt = 24#5 → outHasRoom s = true) :
    ∃ u, flushIfFull s = .next u := by
  by_cases hfull : s.enc.cnt = 24#5
  · exact ⟨flushed s, flushIfFull_eq_next.2 (.inr ⟨hfull, hroom hfull, rfl⟩)⟩
  · exact ⟨s, flushIfFull_of_ne s hfull⟩

/-- Failure entry releases whatever the flush test before it staged, so no trace of that test is
left (R102). -/
theorem raise_unknownSymbol_of_flushIfFull {s u : State} (h : flushIfFull s = .next u) :
    raise .unknownSymbol u = raise .unknownSymbol s := by
  obtain ⟨-, rfl⟩ | ⟨-, -, rfl⟩ := flushIfFull_eq_next.1 h <;> rfl

/-- A push of the unassigned sid enters failure once its flush test answers (R101, R171). -/
theorem exec_epush_unknown {s : State} (hactive : s.enc.est = .active)
    (hroom : s.enc.cnt = 24#5 → outHasRoom s = true) :
    exec (.epush 7) s = .next (raise .unknownSymbol s) := by
  obtain ⟨u, hu⟩ := exists_flushIfFull_eq_next hroom
  rw [exec_epush_of_active 7 hactive, pushSid_eq_next]
  exact ⟨u, hu, .inr ⟨symOfSid_eq_none.2 rfl, (raise_unknownSymbol_of_flushIfFull hu).symm⟩⟩

/-- A push of an assigned sid writes neither status register, whether it flushes first or not. -/
theorem exec_epush_known_status {sid : Sid} {s t : State} (hsid : sid ≠ 7)
    (h : exec (.epush sid) s = .next t) : t.enc.est = s.enc.est ∧ t.enc.eerr = s.enc.eerr := by
  obtain ⟨-, ⟨hseven, -⟩ | ⟨y, -, ⟨-, -, rfl⟩ | ⟨-, -, rfl⟩⟩⟩ := exec_epush_eq_next h
  · exact absurd hseven hsid
  · exact ⟨rfl, rfl⟩
  · exact ⟨rfl, rfl⟩

/-- `EFIN` ends the session without an error: neither its fillers nor its commit write `EERR`
(R171). -/
theorem exec_efin_status {s t : State} (h : exec .efin s = .next t) :
    t.enc.est = .done ∧ t.enc.eerr = s.enc.eerr := by
  obtain ⟨-, u, hfill, rfl⟩ := exec_efin_eq_next.1 h
  rw [commitArtifact_enc, fillTimes_frame hfill]
  exact ⟨rfl, rfl⟩

/-- Settles O6: a push of sid 7 enters failure, and no other push and no `EFIN` writes `EERR`. -/
theorem epushUnknownSymbolFailsSession : Obligations.EpushUnknownSymbolFailsSession := by
  intro s hactive
  refine ⟨exec_epush_unknown hactive, fun sid t hsid hpush => ?_, fun t => exec_efin_status⟩
  obtain ⟨hest, heerr⟩ := exec_epush_known_status hsid hpush
  exact ⟨hest.trans hactive, heerr⟩

end Sys2Proof.Machine

/-! ## Proofs: reset (70_reset_and_hazards.md) -/

namespace Sys2Proof.Machine

/-- Reset opens a new session in each unit, and does nothing else (R192). -/
theorem afterRst_eq_openDec_openEnc (s : State) : afterRst s = openDec (openEnc s) := rfl

/-- Settles O1: the fields of the power-on state one by one, and the reset input as the two session
starts, whose values are those of R191. -/
theorem resetGivesEveryRegisterItsValue : Obligations.ResetGivesEveryRegisterItsValue := by
  constructor
  · exact fun c =>
      ⟨powerOn_enc c, powerOn_dec c, powerOn_elog c, powerOn_dlog c, powerOn_cfg c⟩
  · intro s
    rw [afterRst_eq_openDec_openEnc, openDec, openEnc]

end Sys2Proof.Machine

/-! ## Proofs: the words of the instructions and the step (30_encoding.md, 20_memory.md R59)

### Decoding an instruction's word (R72, R74, R77, R78) -/

namespace Sys2Proof

theorem eq_epushWord_iff {w : BitVec 5} {sid : Sid} :
    w = epushWord sid ↔ w.extractLsb' 3 2 = 0b01 ∧ w.extractLsb' 0 3 = sid :=
  eq_append_iff_fields w 0b01#2 sid

theorem eq_dbyteWord_iff {w : BitVec 10} {b : Byte} :
    w = dbyteWord b ↔ w.extractLsb' 8 2 = 0b01 ∧ w.extractLsb' 0 8 = b :=
  eq_append_iff_fields w 0b01#2 b

/-- R77: the word `01sss` has the operation 01, which starts no other command's word, and the
operand `sss`. -/
theorem decodeEcmd_epushWord (sid : Sid) : decodeEcmd (epushWord sid) = .ok (.epush sid) := by
  obtain ⟨hop, hoperand⟩ := eq_epushWord_iff.1 (rfl : epushWord sid = _)
  have hstart : epushWord sid ≠ 0b00000 := by
    intro h
    rw [h] at hop
    exact absurd hop (by decide)
  rw [decodeEcmd_table, if_neg hstart, if_pos hop, hoperand]

theorem decodeEcmd_start : decodeEcmd 0b00000 = .ok .estart :=
  (decodeEcmd_table _).trans (if_pos rfl)

theorem decodeEcmd_fin : decodeEcmd 0b10000 = .ok .efin := by
  rw [decodeEcmd_table, if_neg (by decide), if_neg (by decide), if_pos rfl]

theorem decodeDcmd_start : decodeDcmd 0b0000000000 = .ok .dstart :=
  (decodeDcmd_table _).trans (if_pos rfl)

theorem decodeDcmd_run : decodeDcmd 0b1000000000 = .ok .drun := by
  rw [decodeDcmd_table, if_neg (by decide), if_neg (by decide), if_pos rfl]

theorem decodeSym3_codeOf {t : CodeTable} (h : t.wf = true) (y : Sym) :
    decodeSym3 t (t.codeOf y) = .ok (instrOfGroup (some y)) := by
  rw [decodeSym3, inv_codeOf h]

theorem decodeSym3_unusedPattern {t : CodeTable} (h : t.wf = true) :
    decodeSym3 t unusedPattern = .ok .symUnused := by
  rw [decodeSym3, (inv_eq_none_iff h).2 rfl]
  rfl

theorem decodeFill1_ofBool (b : Bool) : decodeFill1 b (BitVec.ofBool b) = .ok .filler :=
  if_pos rfl

/-- Settles O31: a command's word by the tables of R77 and R78, a group's by `INV` as the inverse of
`CODE`. -/
theorem decodeOfEncodeIsTheInstruction : Obligations.DecodeOfEncodeIsTheInstruction := by
  intro c i hwf
  cases i with
  | estart => exact decodeEcmd_start
  | epush sid => exact decodeEcmd_epushWord sid
  | efin => exact decodeEcmd_fin
  | dstart => exact decodeDcmd_start
  | dbyte b => exact Machine.decodeDcmd_dbyteWord b
  | drun => exact decodeDcmd_run
  | symInk0 => exact decodeSym3_codeOf hwf .ink0
  | symInk1 => exact decodeSym3_codeOf hwf .ink1
  | symInk2 => exact decodeSym3_codeOf hwf .ink2
  | symInk3 => exact decodeSym3_codeOf hwf .ink3
  | symInk4 => exact decodeSym3_codeOf hwf .ink4
  | symLineEnd => exact decodeSym3_codeOf hwf .lineEnd
  | symStreamEnd => exact decodeSym3_codeOf hwf .streamEnd
  | symUnused => exact decodeSym3_unusedPattern hwf
  | filler => exact decodeFill1_ofBool c.fillerBit

/-! ### The word an instruction was decoded from -/

/-- The instructions of the encoder's command channel, each with the only word it has (R77). -/
theorem decodeEcmd_eq_ok {w : BitVec 5} {i : Instr} (h : decodeEcmd w = .ok i) :
    (i = .estart ∧ w = 0b00000) ∨ (∃ sid, i = .epush sid ∧ w = epushWord sid) ∨
      (i = .efin ∧ w = 0b10000) := by
  rw [decodeEcmd_table] at h
  split_ifs at h with hstart hpush hfin
  · cases h
    exact .inl ⟨rfl, hstart⟩
  · cases h
    exact .inr (.inl ⟨_, rfl, eq_epushWord_iff.2 ⟨hpush, rfl⟩⟩)
  · cases h
    exact .inr (.inr ⟨rfl, hfin⟩)

/-- The instructions of the decoder's command channel, each with the only word it has (R78). -/
theorem decodeDcmd_eq_ok {w : BitVec 10} {i : Instr} (h : decodeDcmd w = .ok i) :
    (i = .dstart ∧ w = 0b0000000000) ∨ (∃ b, i = .dbyte b ∧ w = dbyteWord b) ∨
      (i = .drun ∧ w = 0b1000000000) := by
  rw [decodeDcmd_table] at h
  split_ifs at h with hstart hbyte hrun
  · cases h
    exact .inl ⟨rfl, hstart⟩
  · cases h
    exact .inr (.inl ⟨_, rfl, eq_dbyteWord_iff.2 ⟨hbyte, rfl⟩⟩)
  · cases h
    exact .inr (.inr ⟨rfl, hrun⟩)

theorem encode_instrOfGroup_some (c : Config) (y : Sym) :
    encode c (instrOfGroup (some y)) = .sym3 (c.code.codeOf y) := by
  cases y <;> rfl

/-- The word of the group a pattern stands for is that pattern, under a legal `CODE` (R73). -/
theorem encode_instrOfGroup_inv {c : Config} (h : c.code.wf = true) (v : Sym3) :
    encode c (instrOfGroup (c.code.inv v)) = .sym3 v := by
  cases hv : c.code.inv v with
  | none => rw [(inv_eq_none_iff h).1 hv]; rfl
  | some y => rw [encode_instrOfGroup_some, codeOf_of_inv_eq_some hv]

/-- Settles O32: each channel's table gives an instruction one word, and `INV` undoes `CODE`. -/
theorem encodeOfDecodeIsTheWord : Obligations.EncodeOfDecodeIsTheWord := by
  intro c w i hwf h
  cases w with
  | ecmd w =>
    obtain ⟨rfl, rfl⟩ | ⟨sid, rfl, rfl⟩ | ⟨rfl, rfl⟩ := decodeEcmd_eq_ok h <;> rfl
  | dcmd w =>
    obtain ⟨rfl, rfl⟩ | ⟨b, rfl, rfl⟩ | ⟨rfl, rfl⟩ := decodeDcmd_eq_ok h <;> rfl
  | sym3 v =>
    cases h
    exact encode_instrOfGroup_inv hwf v
  | fill1 f =>
    simp only [decode, decodeFill1] at h
    split_ifs at h with hf
    cases h
    rw [hf, encode]

/-- Settles O35: `01101` and `01111` are `EPUSH` words with operands 5 and 7, `0101001000` is a
`DBYTE` word with operand 0x48. -/
theorem someCommandWordsDecode : Obligations.SomeCommandWordsDecode :=
  fun _ => ⟨decodeEcmd_start, decodeEcmd_epushWord 5, decodeEcmd_epushWord 7, decodeEcmd_fin,
    decodeDcmd_start, Machine.decodeDcmd_dbyteWord 0x48, decodeDcmd_run⟩

/-! ### The step on each kind of input (R59, R176, R190) -/

namespace Machine

theorem fetch_micro {s : State} {m : MicroWord} (hm : s.micro = some m) :
    fetch s = .word m.toCodeWord { s with micro := none } := by
  simp only [fetch, hm]

theorem fetch_rst {s : State} {rest : List HostInput} (hm : s.micro = none)
    (hp : s.port = .rst :: rest) : fetch s = .rst { s with port := rest } := by
  simp only [fetch, hm, hp]

theorem fetch_idle {s : State} (hm : s.micro = none) (hp : s.port = []) : fetch s = .idle := by
  simp only [fetch, hm, hp]

/-- A fetched word that is an instruction runs it. -/
theorem step_of_decode_ok {s t : State} {w : CodeWord} {i : Instr}
    (hf : fetch s = .word w t) (hd : decode t.cfg w = .ok i) : step s = exec i t := by
  simp only [step, hf, hd]

theorem step_of_fetch_rst {s t : State} (hf : fetch s = .rst t) : step s = .next (afterRst t) := by
  simp only [step, hf]

/-- Settles O37: what the step fetches from each form of input, and the decoded word's meaning. -/
theorem stepRunsDecodedInstruction : Obligations.StepRunsDecodedInstruction := by
  intro s i
  refine ⟨?_, ?_, ?_, ?_, ?_⟩
  · exact fun w rest hm hp hd => step_of_decode_ok (fetch_ecmd hm hp) hd
  · exact fun w rest hm hp hd => step_of_decode_ok (fetch_dcmd hm hp) hd
  · exact fun v hm hd => step_of_decode_ok (fetch_micro hm) hd
  · exact fun f hm hd => step_of_decode_ok (fetch_micro hm) hd
  · exact fun rest hm hp => step_of_fetch_rst (fetch_rst hm hp)

/-- Settles O38: with neither input the step is idle. -/
theorem stepWithoutInputChangesNothing : Obligations.StepWithoutInputChangesNothing := by
  intro s hm hp
  simp only [step, fetch_idle hm hp]

end Machine

end Sys2Proof

/-! ## Proofs: the bit-buffer controller and the encoder commands (41_bitbuffer.md, 40_encoder.md)

### The buffered bits (R21, R24) -/

namespace Sys2Proof.Machine

/-- The bits an encoder holds in `ACC`, in stream order (R21, R24). -/
def bufBits (e : Enc) : List Bool :=
  (List.range e.cnt.toNat).map e.acc.getLsbD

@[simp] theorem length_bufBits (e : Enc) : (bufBits e).length = e.cnt.toNat := by
  simp [bufBits]

theorem bufBits_of_cnt_zero {e : Enc} (h : e.cnt = 0) : bufBits e = [] := by
  simp [bufBits, h]

theorem getElem?_bufBits {e : Enc} {j : Nat} (h : j < e.cnt.toNat) :
    (bufBits e)[j]? = some (e.acc.getLsbD j) := by
  simp [bufBits, h]

/-- Two accumulators with the same bits below `CNT` hold the same bits (R21). -/
theorem bufBits_congr {e : Enc} {a : Acc}
    (h : ∀ j, j < e.cnt.toNat → a.getLsbD j = e.acc.getLsbD j) :
    bufBits { e with acc := a } = bufBits e :=
  List.map_congr_left fun j hj => h j (List.mem_range.1 hj)

theorem withBits_nil (s : State) : withBits [] s = s := by
  simp [withBits, writeBits]

theorem writeBits_append (a : Acc) (p : Nat) (xs ys : List Bool) :
    writeBits a p (xs ++ ys) = writeBits (writeBits a p xs) (p + xs.length) ys := by
  induction xs generalizing a p with
  | nil => rfl
  | cons x xs ih =>
    rw [List.cons_append, writeBits, writeBits, ih, List.length_cons, Nat.add_assoc,
      Nat.add_comm 1]

theorem toNat_cnt_withBits {bits : List Bool} {s : State}
    (h : s.enc.cnt.toNat + bits.length ≤ 24) :
    (withBits bits s).enc.cnt.toNat = s.enc.cnt.toNat + bits.length :=
  toNat_cnt_add _ _ h

/-- Two appends to one block are one append (R121). -/
theorem withBits_withBits {xs ys : List Bool} {s : State}
    (h : s.enc.cnt.toNat + xs.length ≤ 24) :
    withBits ys (withBits xs s) = withBits (xs ++ ys) s := by
  have hcnt := toNat_cnt_add s.enc.cnt xs.length h
  simp only [withBits, hcnt, writeBits_append, List.length_append, BitVec.ofNat_add,
    BitVec.add_assoc]

/-- An append adds its bits behind those held (R53, R121). -/
theorem bufBits_withBits {bits : List Bool} {s : State}
    (h : s.enc.cnt.toNat + bits.length ≤ 24) :
    bufBits (withBits bits s).enc = bufBits s.enc ++ bits := by
  refine List.ext_getElem? fun j => ?_
  by_cases hlt : j < s.enc.cnt.toNat + bits.length
  · rw [getElem?_bufBits (by rwa [toNat_cnt_withBits h]), getLsbD_writeBits _ _ _ _ h]
    by_cases hj : j < s.enc.cnt.toNat
    · rw [if_neg (by omega), List.getElem?_append_left (by simpa using hj), getElem?_bufBits hj]
    · rw [if_pos (by omega), List.getElem?_append_right (by simpa using hj), length_bufBits,
        List.getD_eq_getElem _ _ (by omega), List.getElem?_eq_getElem (by omega)]
  · rw [List.getElem?_eq_none (by rw [length_bufBits, toNat_cnt_withBits h]; omega),
      List.getElem?_eq_none (by rw [List.length_append, length_bufBits]; omega)]

/-! ### The three bytes of a block (R52, R122) -/

/-- Eight bits of a number pack to its low byte (R12). -/
theorem pack_low_byte (v : Nat) : pack ((List.range 8).map v.testBit) = [BitVec.ofNat 8 v] := by
  have hbits : (List.range 8).map v.testBit = [v.testBit 0, v.testBit 1, v.testBit 2, v.testBit 3,
    v.testBit 4, v.testBit 5, v.testBit 6, v.testBit 7] := rfl
  have hbyte : BitVec.ofNat 8 (bitsVal ((List.range 8).map v.testBit)) = BitVec.ofNat 8 v := by
    refine BitVec.eq_of_getLsbD_eq fun j hj => ?_
    rw [BitVec.getLsbD_ofNat, testBit_bitsVal, BitVec.getLsbD_ofNat]
    simp [hj]
  rw [hbits, pack, pack, ← hbits, hbyte]
  nofun

/-- The low bytes of a number are the packing of its low bits (R11, R12). -/
theorem leBytes_eq_pack (n v : Nat) : leBytes n v = pack ((List.range (8 * n)).map v.testBit) := by
  induction n generalizing v with
  | zero => rfl
  | succ n ih =>
    have hhigh : ((List.range (8 * n)).map (8 + ·)).map v.testBit =
        (List.range (8 * n)).map (v / 256).testBit := by
      rw [List.map_map]
      refine List.map_congr_left fun j _ => ?_
      rw [Function.comp, show 256 = 2 ^ 8 from rfl, Nat.testBit_div_two_pow]
      rw [Nat.add_comm]
    rw [leBytes, ih, Nat.mul_succ, Nat.add_comm (8 * n), List.range_add, List.map_append, hhigh,
      pack_append _ _ (by simp), pack_low_byte, List.singleton_append]

/-- A flush of a full block appends the packing of the 24 bits held (R122). -/
theorem flushed_out_of_full {s : State} (h : s.enc.cnt = 24#5) :
    (flushed s).enc.out = s.enc.out ++ pack (bufBits s.enc) := by
  have hbits : bufBits s.enc = (List.range (8 * 3)).map s.enc.acc.toNat.testBit := by
    rw [bufBits, h]
    rfl
  rw [hbits, ← leBytes_eq_pack]

theorem bufBits_flushed (s : State) : bufBits (flushed s).enc = [] :=
  bufBits_of_cnt_zero rfl

/-- An append to a fresh block holds its bits alone. -/
theorem bufBits_withBits_flushed {bits : List Bool} {s : State} (h : bits.length ≤ 24) :
    bufBits (withBits bits (flushed s)).enc = bits := by
  rw [bufBits_withBits (by simpa using h), bufBits_flushed, List.nil_append]

/-! ### The four outcomes of an append (R121, R122, R125) -/

theorem cnt_eq_24_iff {n : Cnt} : n = 24#5 ↔ n.toNat = 24 := by
  rw [← BitVec.toNat_inj]
  rfl

theorem append_of_le {bits : List Bool} {s : State} (hne : s.enc.cnt ≠ 24#5)
    (h : s.enc.cnt.toNat + bits.length ≤ 24) : append bits s = .next (withBits bits s) :=
  append_eq_next.2 (.inl ⟨hne, h, rfl⟩)

theorem append_of_full {bits : List Bool} {s : State} (hfull : s.enc.cnt = 24#5)
    (hroom : outHasRoom s = true) (h : bits.length ≤ 24) :
    append bits s = .next (withBits bits (flushed s)) :=
  append_eq_next.2 (.inr ⟨hfull, hroom, h, rfl⟩)

theorem append_without_room {bits : List Bool} {s : State} (hfull : s.enc.cnt = 24#5)
    (hroom : outHasRoom s = false) : append bits s = .refused .noCapacity := by
  rw [append, flushIfFull_of_eq s hfull, flush_eq_refused s hroom, andThen_refused_left]

theorem addBits_of_gt {bits : List Bool} {s : State} (h : 24 < s.enc.cnt.toNat + bits.length) :
    addBits bits s = .fault .accOverrun :=
  if_neg (Nat.not_le.2 h)

theorem append_of_gt {bits : List Bool} {s : State} (hne : s.enc.cnt ≠ 24#5)
    (h : 24 < s.enc.cnt.toNat + bits.length) : append bits s = .fault .accOverrun := by
  rw [append, flushIfFull_of_ne s hne, andThen_next_left, addBits_of_gt h]

/-! ### A push of a known symbol (R101, R104) -/

/-- A push of a known symbol is an append of its code (R101). -/
theorem exec_epush_known (y : Sym) {s : State} (h : s.enc.est = .active) :
    exec (.epush (sidOf y)) s = append (symBitsOf s.cfg y) s := by
  rw [exec_epush_of_active _ h, pushSid, append]
  cases hflush : flushIfFull s with
  | next u =>
    have hcfg : u.cfg = s.cfg := by
      obtain ⟨-, rfl⟩ | ⟨-, -, rfl⟩ := flushIfFull_eq_next.1 hflush <;> rfl
    simp only [andThen_next_left, symOfSid_sidOf, hcfg]
  | fault r | refused r => rfl

theorem exec_epush_of_le (y : Sym) {s : State} (hactive : s.enc.est = .active)
    (h : s.enc.cnt.toNat ≤ 21) :
    exec (.epush (sidOf y)) s = .next (withBits (symBitsOf s.cfg y) s) := by
  rw [exec_epush_known y hactive]
  exact append_of_le (fun hfull => absurd (cnt_eq_24_iff.1 hfull) (by omega))
    (by rw [length_symBitsOf]; omega)

theorem exec_epush_of_full (y : Sym) {s : State} (hactive : s.enc.est = .active)
    (hfull : s.enc.cnt = 24#5) (hroom : outHasRoom s = true) :
    exec (.epush (sidOf y)) s = .next (withBits (symBitsOf s.cfg y) (flushed s)) := by
  rw [exec_epush_known y hactive]
  exact append_of_full hfull hroom (by rw [length_symBitsOf]; omega)

theorem getD_codeBits (v : Sym3) (k : Nat) : (codeBits v).getD k false = v.getLsbD k := by
  match k with
  | 0 | 1 | 2 => rfl
  | k + 3 => rw [BitVec.getLsbD_of_ge v (k + 3) (by omega)]; rfl

theorem writeBits_zero_codeBits (v : Sym3) : writeBits 0 0 (codeBits v) = v.setWidth 24 := by
  revert v
  decide

theorem writeBits_zero_singleton (b : Bool) :
    writeBits 0 0 [b] = (BitVec.ofBool b).setWidth 24 := by
  revert b
  decide

/-- Settles O4: the append of the code's three bits to the block. -/
theorem epushAppendsSymbolCode : Obligations.EpushAppendsSymbolCode := by
  intro s y hactive hle
  have hfits : s.enc.cnt.toNat + (symBitsOf s.cfg y).length ≤ 24 := by
    rw [length_symBitsOf]; omega
  refine ⟨_, _, exec_epush_of_le y hactive hle, toNat_cnt_withBits hfits, fun j => ?_⟩
  rw [getLsbD_writeBits _ _ _ _ hfits, length_symBitsOf, symBitsOf, getD_codeBits]

/-- Settles O5: the append of the code's three bits to the block after the flush. -/
theorem epushFlushesWaitingBlock : Obligations.EpushFlushesWaitingBlock := by
  intro s y hactive hfull hroom
  rw [exec_epush_of_full y hactive hfull hroom, ← leBytes_acc, ← writeBits_zero_codeBits]
  rfl

/-! ### Filler appends (R105, R123, R126) -/

theorem exec_filler (s : State) : exec .filler s = append [s.cfg.fillerBit] s := rfl

theorem fillTimes_succ (n : Nat) (s : State) :
    fillTimes (n + 1) s = andThen (append [s.cfg.fillerBit] s) (fillTimes n) := rfl

theorem execAll_replicate_filler (n : Nat) (s : State) :
    execAll (List.replicate n .filler) s = fillTimes n s := by
  induction n generalizing s with
  | zero => rfl
  | succ n ih => rw [List.replicate_succ, execAll_cons, exec_filler, fillTimes_succ, funext ih]

/-- Settles O15: the three outcomes of an append of one bit. -/
theorem fillerAppendsFillerBit : Obligations.FillerAppendsFillerBit := by
  intro s
  refine ⟨fun hle => ?_, fun hfull hroom => ?_, fun hfull hroom => append_without_room hfull hroom⟩
  · have hne : s.enc.cnt ≠ 24#5 := fun hfull => absurd (cnt_eq_24_iff.1 hfull) (by omega)
    have hfits : s.enc.cnt.toNat + [s.cfg.fillerBit].length ≤ 24 := Nat.succ_le_succ hle
    refine ⟨_, _, append_of_le hne hfits, toNat_cnt_withBits hfits, fun j => ?_⟩
    refine (getLsbD_writeBits _ _ _ _ hfits).trans ?_
    by_cases hj : j = s.enc.cnt.toNat
    · rw [if_pos hj, if_pos (by simp; omega), hj, Nat.sub_self]
      rfl
    · rw [if_neg hj, if_neg (by simp; omega)]
  · rw [exec_filler, append_of_full hfull hroom (by simp), ← leBytes_acc,
      ← writeBits_zero_singleton]
    rfl

/-- Filler appends that stay inside the block fill it and do nothing else. -/
theorem fillTimes_of_le {k : Nat} {s : State} (h : s.enc.cnt.toNat + k ≤ 24) :
    fillTimes k s = .next (withBits (List.replicate k s.cfg.fillerBit) s) := by
  induction k generalizing s with
  | zero => rw [List.replicate_zero, withBits_nil]; rfl
  | succ k ih =>
    have hne : s.enc.cnt ≠ 24#5 := fun hfull => absurd (cnt_eq_24_iff.1 hfull) (by omega)
    have hone : s.enc.cnt.toNat + [s.cfg.fillerBit].length ≤ 24 := by simp; omega
    have hcnt := toNat_cnt_withBits hone
    rw [fillTimes_succ, append_of_le hne hone, andThen_next_left,
      ih (by rw [hcnt]; simp; omega), withBits_withBits hone]
    rfl

theorem fillTimes_of_empty {s : State} (h : s.enc.cnt = 0) :
    fillTimes 24 s = .next (withBits (List.replicate 24 s.cfg.fillerBit) s) :=
  fillTimes_of_le (by rw [h]; rfl)

/-- Filler appends to a full block flush it first and go on in the next one. -/
theorem fillTimes_of_full {k : Nat} {s : State} (hfull : s.enc.cnt = 24#5)
    (hroom : outHasRoom s = true) (hpos : 1 ≤ k) (hk : k ≤ 24) :
    fillTimes k s = .next (withBits (List.replicate k s.cfg.fillerBit) (flushed s)) := by
  obtain ⟨k, rfl⟩ : ∃ m, k = m + 1 := ⟨k - 1, by omega⟩
  have hone : (flushed s).enc.cnt.toNat + [s.cfg.fillerBit].length ≤ 24 := by simp
  have hcnt := toNat_cnt_withBits hone
  rw [fillTimes_succ, append_of_full hfull hroom (by simp), andThen_next_left,
    fillTimes_of_le (by rw [hcnt]; simp; omega), withBits_withBits hone]
  rfl

/-- The block that `EFIN`'s fillers complete: the bits held, then filler bits (R106). -/
def lastBlock (s : State) : List Bool :=
  bufBits s.enc ++ List.replicate (24 - s.enc.cnt.toNat) s.cfg.fillerBit

/-- The state whose block the fillers have completed and not yet flushed. -/
def filledUp (s : State) : State :=
  withBits (List.replicate (24 - s.enc.cnt.toNat) s.cfg.fillerBit) s

section

variable {s : State} (hle : s.enc.cnt.toNat ≤ 24)

include hle

theorem fillTimes_filledUp : fillTimes (24 - s.enc.cnt.toNat) s = .next (filledUp s) :=
  fillTimes_of_le (by omega)

theorem filledUp_cnt : (filledUp s).enc.cnt = 24#5 := by
  rw [cnt_eq_24_iff, filledUp, toNat_cnt_withBits (by rw [List.length_replicate]; omega),
    List.length_replicate]
  omega

theorem flushed_filledUp_out :
    (flushed (filledUp s)).enc.out = s.enc.out ++ pack (lastBlock s) := by
  rw [flushed_out_of_full (filledUp_cnt hle), filledUp,
    bufBits_withBits (by rw [List.length_replicate]; omega), lastBlock]

/-- From append number `25 - q` on the completed block is flushed and the next one filled (R126). -/
theorem fillTimes_across {k : Nat} (hroom : outHasRoom s = true)
    (hk : 25 - s.enc.cnt.toNat ≤ k) (hk24 : k ≤ 24) :
    fillTimes k s = .next (withBits
      (List.replicate (k - (24 - s.enc.cnt.toNat)) s.cfg.fillerBit) (flushed (filledUp s))) := by
  obtain ⟨m, rfl⟩ : ∃ m, k = (24 - s.enc.cnt.toNat) + m := ⟨k - (24 - s.enc.cnt.toNat), by omega⟩
  rw [fillTimes_add, fillTimes_filledUp hle, andThen_next_left, Nat.add_sub_cancel_left]
  exact fillTimes_of_full (filledUp_cnt hle) hroom (by omega) (by omega)

/-- Without room the append that has to flush is refused, and the fillers with it (R107). -/
theorem fillTimes_without_room (hroom : outHasRoom s = false) (hpos : 1 ≤ s.enc.cnt.toNat) :
    fillTimes 24 s = .refused .noCapacity := by
  obtain ⟨m, hm⟩ : ∃ m, 24 = (24 - s.enc.cnt.toNat) + (m + 1) := ⟨s.enc.cnt.toNat - 1, by omega⟩
  rw [hm, fillTimes_add, fillTimes_filledUp hle, andThen_next_left, fillTimes_succ,
    append_without_room (filledUp_cnt hle) hroom, andThen_refused_left]

end

theorem getLsbD_withBits_replicate {k j : Nat} {b : Bool} {s : State} (hk : k ≤ 24) (hj : j < k)
    (hcnt : s.enc.cnt = 0) : (withBits (List.replicate k b) s).enc.acc.getLsbD j = b := by
  have hfits : s.enc.cnt.toNat + (List.replicate k b).length ≤ 24 := by simpa [hcnt] using hk
  rw [getLsbD_writeBits _ _ _ _ hfits, if_pos (by simpa [hcnt] using hj)]
  simp [hcnt, hj]

/-- Settles O11: the appends that fill the block, and those that go on after its flush. -/
theorem fillerAppendsFlushOnceAtTheExpectedOne :
    Obligations.FillerAppendsFlushOnceAtTheExpectedOne := by
  intro s
  refine ⟨fun hpos hle hroom => ⟨fun k hk => ?_, fun k hk hk24 => ?_⟩, fun hcnt => ?_⟩
  · have hfits : s.enc.cnt.toNat + k ≤ 24 := by omega
    refine ⟨_, fillTimes_of_le hfits, ?_, rfl⟩
    rw [toNat_cnt_withBits (by rwa [List.length_replicate]), List.length_replicate]
  · have hlen : k - (24 - s.enc.cnt.toNat) ≤ 24 := by omega
    have hcnt : (withBits (List.replicate (k - (24 - s.enc.cnt.toNat)) s.cfg.fillerBit)
        (flushed (filledUp s))).enc.cnt.toNat = k - (24 - s.enc.cnt.toNat) := by
      rw [toNat_cnt_withBits (by simpa using hlen), List.length_replicate]
      exact Nat.zero_add _
    refine ⟨_, fillTimes_across hle hroom hk hk24, hcnt, flushed_filledUp_out hle, fun j hj => ?_⟩
    exact getLsbD_withBits_replicate hlen (hcnt ▸ hj) rfl
  · refine ⟨_, fillTimes_of_empty hcnt, ?_, rfl, fun j hj => ?_⟩
    · exact congrArg (· + BitVec.ofNat 5 24) hcnt
    · exact getLsbD_withBits_replicate le_rfl hj hcnt

/-! ### EFIN (R105 to R109) -/

theorem exec_efin_of_active {s : State} (h : s.enc.est = .active) :
    exec .efin s = andThen (fillTimes 24 s) fun t => .next (commitArtifact t) :=
  if_pos h

/-- `EFIN` in terms of what its fillers leave in `OUT`. -/
theorem exec_efin_of_fillTimes {s u : State} (hactive : s.enc.est = .active)
    (hfill : fillTimes 24 s = .next u) :
    exec .efin s = .next { s with
      elog := s.elog ++ [u.enc.out],
      enc := { s.enc with acc := 0, cnt := 0, out := [], est := .done } } := by
  refine exec_efin_eq_next.2 ⟨hactive, u, hfill, ?_⟩
  rw [fillTimes_frame hfill]
  rfl

theorem exec_efin_of_room {s : State} (hactive : s.enc.est = .active)
    (hpos : 1 ≤ s.enc.cnt.toNat) (hle : s.enc.cnt.toNat ≤ 24) (hroom : outHasRoom s = true) :
    exec .efin s = .next { s with
      elog := s.elog ++ [s.enc.out ++ pack (lastBlock s)],
      enc := { s.enc with acc := 0, cnt := 0, out := [], est := .done } } := by
  have hfill := fillTimes_across hle hroom (k := 24) (by omega) le_rfl
  rw [exec_efin_of_fillTimes hactive hfill, ← flushed_filledUp_out hle]

theorem exec_efin_of_empty {s : State} (hactive : s.enc.est = .active) (hcnt : s.enc.cnt = 0) :
    exec .efin s = .next { s with
      elog := s.elog ++ [s.enc.out],
      enc := { s.enc with acc := 0, cnt := 0, out := [], est := .done } } := by
  rw [exec_efin_of_fillTimes hactive (fillTimes_of_empty hcnt)]

theorem exec_efin_without_room {s : State} (hactive : s.enc.est = .active)
    (hpos : 1 ≤ s.enc.cnt.toNat) (hle : s.enc.cnt.toNat ≤ 24) (hroom : outHasRoom s = false) :
    exec .efin s = .refused .noCapacity := by
  rw [exec_efin_of_active hactive, fillTimes_without_room hle hroom hpos, andThen_refused_left]

/-- Settles O9: the fillers flush the completed block once, or never. -/
theorem efinCommitsPaddedLastBlock : Obligations.EfinCommitsPaddedLastBlock :=
  fun _ hactive => ⟨exec_efin_of_room hactive, exec_efin_of_empty hactive⟩

/-- Settles O10: `FILLER` by itself is one `FILL`. -/
theorem efinIsTwentyFourFillersThenCommit : Obligations.EfinIsTwentyFourFillersThenCommit := by
  intro s t hactive
  rw [execAll_replicate_filler, exec_efin_eq_next]
  exact and_iff_right hactive

/-- Settles O12: a new session has an empty buffer and an empty `OUT`. -/
theorem emptySessionCommitsEmptyArtifact : Obligations.EmptySessionCommitsEmptyArtifact := by
  constructor
  · intro s
    rw [execAll_cons, exec_estart, andThen_next_left, execAll_cons, exec_efin_of_empty rfl rfl]
    rfl
  · intro c
    rw [exec_efin_of_empty rfl rfl]
    rfl

theorem cnt_eq_zero_or_pos (n : Cnt) : n = 0 ∨ 1 ≤ n.toNat := by
  rw [← BitVec.toNat_inj]
  exact Nat.eq_zero_or_pos _

/-- Settles O13: `EFIN` answers with an empty buffer or with room, and is refused otherwise. -/
theorem efinWithoutRoomHasNoStep : Obligations.EfinWithoutRoomHasNoStep := by
  intro s hactive hle
  rw [← outHasRoom_eq_false]
  refine ⟨fun ⟨hpos, hroom⟩ => exec_efin_without_room hactive hpos hle hroom, fun href => ?_⟩
  obtain hzero | hpos := cnt_eq_zero_or_pos s.enc.cnt
  · rw [exec_efin_of_empty hactive hzero] at href
    cases href
  · cases hroom : outHasRoom s with
    | false => exact ⟨hpos, rfl⟩
    | true =>
      rw [exec_efin_of_room hactive hpos hle hroom] at href
      cases href

/-- Settles O14: in each of `EFIN`'s outcomes the accumulator is in the bits held alone. -/
theorem efinNeverReadsBitsAboveCount : Obligations.EfinNeverReadsBitsAboveCount := by
  intro s a hle hbits
  have hblock : lastBlock { s with enc := { s.enc with acc := a } } = lastBlock s :=
    congrArg (· ++ _) (bufBits_congr hbits)
  by_cases hactive : s.enc.est = .active
  · obtain hzero | hpos := cnt_eq_zero_or_pos s.enc.cnt
    · rw [exec_efin_of_empty hactive hzero]
      exact exec_efin_of_empty hactive hzero
    · cases hroom : outHasRoom s with
      | false =>
        rw [exec_efin_without_room hactive hpos hle hroom]
        exact exec_efin_without_room hactive hpos hle hroom
      | true =>
        rw [exec_efin_of_room hactive hpos hle hroom, ← hblock]
        exact exec_efin_of_room hactive hpos hle hroom
  · rw [exec_efin_of_ended hactive]
    exact exec_efin_of_ended hactive

/-- Settles O16: an append beyond bit 23 faults in each of the three instructions, and the
invariant's counts leave room for one. -/
theorem appendOutsideAccumulatorFaults : Obligations.AppendOutsideAccumulatorFaults := by
  intro s
  have hfill : 25 ≤ s.enc.cnt.toNat → append [s.cfg.fillerBit] s = .fault .accOverrun := by
    intro hgt
    have hne : s.enc.cnt ≠ 24#5 := fun hfull => absurd (cnt_eq_24_iff.1 hfull) (by omega)
    exact append_of_gt hne (by simp; omega)
  refine ⟨fun y hactive hgt hne => ?_, hfill, fun hactive hgt => ?_, fun hinv => ?_⟩
  · rw [exec_epush_known y hactive]
    exact append_of_gt hne (by rw [length_symBitsOf]; omega)
  · rw [exec_efin_of_active hactive, fillTimes_succ, hfill hgt]
    rfl
  · refine ⟨hinv.enc.cnt_le, fun hactive => ?_⟩
    have hmod : s.enc.cnt.toNat % 3 = 0 := hinv.enc.cnt_whole_symbols hactive
    omega

end Sys2Proof.Machine

/-! ## Proofs: the two units side by side (10_state.md, 20_memory.md section 6)

### The instructions of each unit and what they leave alone (R23, R42, R181) -/

namespace Sys2Proof.Machine

/-- The instructions of the encoder unit: its commands and the filler append. -/
abbrev EncoderInstr (i : Instr) : Prop :=
  i = .estart ∨ (∃ sid, i = .epush sid) ∨ i = .efin ∨ i = .filler

/-- The instructions of the decoder unit: its commands and the eight groups. -/
abbrev DecoderInstr (i : Instr) : Prop :=
  i = .dstart ∨ (∃ b, i = .dbyte b) ∨ i = .drun ∨ ∃ o, i = instrOfGroup o

theorem encoderInstr_or_decoderInstr (i : Instr) : EncoderInstr i ∨ DecoderInstr i := by
  cases i with
  | estart => exact .inl (.inl rfl)
  | epush sid => exact .inl (.inr (.inl ⟨sid, rfl⟩))
  | efin => exact .inl (.inr (.inr (.inl rfl)))
  | filler => exact .inl (.inr (.inr (.inr rfl)))
  | dstart => exact .inr (.inl rfl)
  | dbyte b => exact .inr (.inr (.inl ⟨b, rfl⟩))
  | drun => exact .inr (.inr (.inr (.inl rfl)))
  | symInk0 => exact .inr (.inr (.inr (.inr ⟨some .ink0, rfl⟩)))
  | symInk1 => exact .inr (.inr (.inr (.inr ⟨some .ink1, rfl⟩)))
  | symInk2 => exact .inr (.inr (.inr (.inr ⟨some .ink2, rfl⟩)))
  | symInk3 => exact .inr (.inr (.inr (.inr ⟨some .ink3, rfl⟩)))
  | symInk4 => exact .inr (.inr (.inr (.inr ⟨some .ink4, rfl⟩)))
  | symLineEnd => exact .inr (.inr (.inr (.inr ⟨some .lineEnd, rfl⟩)))
  | symStreamEnd => exact .inr (.inr (.inr (.inr ⟨some .streamEnd, rfl⟩)))
  | symUnused => exact .inr (.inr (.inr (.inr ⟨none, rfl⟩)))

/-- A group's action writes nothing but the decoder unit and its log (R147). -/
theorem scanGroup_frame (o : Option Sym) (s : State) :
    scanGroup o s = { s with dec := (scanGroup o s).dec, dlog := (scanGroup o s).dlog } := by
  unfold scanGroup
  cases groupAction o with
  | emit sid => rfl
  | stop e => cases e <;> rfl

/-- A whole scan writes nothing but the decoder unit and its log (R148). -/
theorem runScan_frame (s : State) :
    runScan s = { s with dec := (runScan s).dec, dlog := (runScan s).dlog } := by
  rw [runScan, endScan_frame]

/-- An encoder instruction writes nothing but the encoder unit and its log. -/
theorem exec_encoder_frame {i : Instr} {s t : State} (hi : EncoderInstr i)
    (h : exec i s = .next t) : t = { s with enc := t.enc, elog := t.elog } := by
  obtain rfl | ⟨sid, rfl⟩ | rfl | rfl := hi
  · cases h
    rfl
  · obtain ⟨-, ⟨-, rfl⟩ | ⟨y, -, ⟨-, -, rfl⟩ | ⟨-, -, rfl⟩⟩⟩ := exec_epush_eq_next h <;> rfl
  · obtain ⟨-, u, hfill, rfl⟩ := exec_efin_eq_next.1 h
    rw [fillTimes_frame hfill]
    rfl
  · have hfill : fill s = .next t := h
    rw [fill_frame hfill]

/-- A decoder instruction writes nothing but the decoder unit and its log. -/
theorem exec_decoder_frame {i : Instr} {s t : State} (hi : DecoderInstr i)
    (h : exec i s = .next t) : t = { s with dec := t.dec, dlog := t.dlog } := by
  obtain rfl | ⟨b, rfl⟩ | rfl | ⟨o, rfl⟩ := hi
  · cases h
    rfl
  · obtain ⟨-, -, rfl⟩ := exec_dbyte_eq_next.1 h
    rfl
  · obtain ⟨-, rfl⟩ := exec_drun_eq_next.1 h
    exact runScan_frame s
  · rw [exec_instrOfGroup] at h
    cases h
    exact scanGroup_frame o s

section

variable {i : Instr} {s t : State}

theorem exec_encoder_leaves (hi : EncoderInstr i) (h : exec i s = .next t) :
    t.dec = s.dec ∧ t.dlog = s.dlog := by
  rw [exec_encoder_frame hi h]
  exact ⟨rfl, rfl⟩

theorem exec_decoder_leaves (hi : DecoderInstr i) (h : exec i s = .next t) :
    t.enc = s.enc ∧ t.elog = s.elog := by
  rw [exec_decoder_frame hi h]
  exact ⟨rfl, rfl⟩

/-- No instruction writes a parameter or takes an input (R28, R62). -/
theorem exec_leaves_inputs (h : exec i s = .next t) :
    t.cfg = s.cfg ∧ t.port = s.port ∧ t.micro = s.micro := by
  obtain hi | hi := encoderInstr_or_decoderInstr i
  · rw [exec_encoder_frame hi h]
    exact ⟨rfl, rfl, rfl⟩
  · rw [exec_decoder_frame hi h]
    exact ⟨rfl, rfl, rfl⟩

end

/-- Settles O43: the frames of the two units. -/
theorem eachUnitLeavesTheOtherAlone : Obligations.EachUnitLeavesTheOtherAlone :=
  fun i _ _ h => ⟨exec_leaves_inputs h, fun hi => exec_encoder_leaves hi h,
    fun hi => exec_decoder_leaves ((encoderInstr_or_decoderInstr i).resolve_left hi) h⟩

/-! ### Commits (R31, R44, R61) -/

theorem exec_efin_elog {s t : State} (h : exec .efin s = .next t) :
    ∃ a, t.elog = s.elog ++ [a] := by
  obtain ⟨-, u, hfill, rfl⟩ := exec_efin_eq_next.1 h
  have helog : u.elog = s.elog := by rw [fillTimes_frame hfill]
  exact ⟨u.enc.out, by rw [commitArtifact_elog, helog]⟩

theorem exec_elog_of_ne_efin {i : Instr} {s t : State} (hi : i ≠ .efin)
    (h : exec i s = .next t) : t.elog = s.elog := by
  obtain (rfl | ⟨sid, rfl⟩ | rfl | rfl) | hdec := encoderInstr_or_decoderInstr i
  · cases h
    rfl
  · obtain ⟨-, ⟨-, rfl⟩ | ⟨y, -, ⟨-, -, rfl⟩ | ⟨-, -, rfl⟩⟩⟩ := exec_epush_eq_next h <;> rfl
  · exact absurd rfl hi
  · have hfill : fill s = .next t := h
    rw [fill_frame hfill]
  · exact (exec_decoder_leaves hdec h).2

/-- A scan's end that is `DONE` commits its `DOUT`. -/
theorem endScan_dlog_of_done {e : ScanEnd} {s : State} (h : (endScan e s).dec.dst = .done) :
    (endScan e s).dlog = s.dlog ++ [(endScan e s).dec.dout] := by
  cases e with
  | success => rfl
  | invalidCode | endOfDigits => cases h

/-- A scan's end that is not `DONE` commits nothing. -/
theorem endScan_dlog_of_ne_done {e : ScanEnd} {s : State} (h : (endScan e s).dec.dst ≠ .done) :
    (endScan e s).dlog = s.dlog := by
  cases e with
  | success => exact absurd rfl h
  | invalidCode | endOfDigits => rfl

theorem scanGroup_dlog_of_ne {o : Option Sym} (ho : o ≠ some .streamEnd) (s : State) :
    (scanGroup o s).dlog = s.dlog := by
  unfold scanGroup
  cases haction : groupAction o with
  | emit sid => rfl
  | stop e =>
    obtain ⟨-, rfl⟩ | ⟨hend, -⟩ := eq_of_groupAction_stop haction
    · rfl
    · exact absurd hend ho

/-- Settles O45: `ELOG` by the encoder's instructions, `DLOG` by how a scan ends. -/
theorem onlyEfinAndScansCommit : Obligations.OnlyEfinAndScansCommit := by
  intro i s t h
  refine ⟨?_, fun hi => exec_elog_of_ne_efin hi h, ?_, ?_⟩
  · rintro rfl
    exact ⟨(exec_efin_status h).1, exec_efin_elog h⟩
  · rintro (rfl | rfl) hdone
    · obtain ⟨-, rfl⟩ := exec_drun_eq_next.1 h
      exact endScan_dlog_of_done hdone
    · cases h
      rfl
  · intro hnot
    obtain henc | rfl | ⟨b, rfl⟩ | rfl | ⟨o, rfl⟩ := encoderInstr_or_decoderInstr i
    · exact (exec_encoder_leaves henc h).2
    · cases h
      rfl
    · obtain ⟨-, -, rfl⟩ := exec_dbyte_eq_next.1 h
      rfl
    · obtain ⟨-, rfl⟩ := exec_drun_eq_next.1 h
      exact endScan_dlog_of_ne_done fun hdone => hnot ⟨.inl rfl, hdone⟩
    · rw [exec_instrOfGroup] at h
      cases h
      refine scanGroup_dlog_of_ne (fun ho => ?_) s
      subst ho
      exact hnot ⟨.inr rfl, rfl⟩

/-- An instruction adds to the logs at their ends only, and writes no parameter. -/
theorem exec_keeps_logs {i : Instr} {s t : State} (h : exec i s = .next t) :
    s.elog <+: t.elog ∧ s.dlog <+: t.dlog ∧ t.cfg = s.cfg := by
  obtain ⟨hefin, hother, hdone, hnot⟩ := onlyEfinAndScansCommit i s t h
  obtain ⟨hcfg, -, -⟩ := exec_leaves_inputs h
  refine ⟨?_, ?_, hcfg⟩
  · by_cases hi : i = .efin
    · obtain ⟨-, a, ha⟩ := hefin hi
      exact ⟨[a], ha.symm⟩
    · rw [hother hi]
  · by_cases hi : (i = .drun ∨ i = .symStreamEnd) ∧ t.dec.dst = .done
    · exact ⟨[t.dec.dout], (hdone hi.1 hi.2).symm⟩
    · rw [hnot hi]

/-- Settles O46: the reset input leaves the logs, and every other step is an instruction's. -/
theorem stepKeepsLogsAndParameters : Obligations.StepKeepsLogsAndParameters := by
  intro s t h
  obtain ⟨-, -, rfl⟩ | ⟨rest, -, -, rfl⟩ | ⟨w, rest, i, -, -, -, he⟩ | ⟨w, rest, i, -, -, -, he⟩ |
    ⟨m, i, -, -, he⟩ := step_eq_next h
  · exact ⟨⟨[], List.append_nil _⟩, ⟨[], List.append_nil _⟩, rfl⟩
  · exact ⟨⟨[], List.append_nil _⟩, ⟨[], List.append_nil _⟩, rfl⟩
  · simpa only using exec_keeps_logs he
  · simpa only using exec_keeps_logs he
  · simpa only using exec_keeps_logs he

/-! ### The ways into `FAILED` (R27, R170 to R173) -/

/-- Only a push of the unassigned sid takes the encoder into `FAILED`. -/
theorem eq_epush_seven_of_enc_failed {i : Instr} {s t : State} (h : exec i s = .next t)
    (hs : s.enc.est ≠ .failed) (ht : t.enc.est = .failed) :
    i = .epush 7 ∧ t.enc.eerr = .unknownSymbol := by
  obtain (rfl | ⟨sid, rfl⟩ | rfl | rfl) | hdec := encoderInstr_or_decoderInstr i
  · cases h
    cases ht
  · by_cases hsid : sid = 7
    · obtain ⟨-, ⟨-, rfl⟩ | ⟨y, hy, -⟩⟩ := exec_epush_eq_next h
      · exact ⟨by rw [hsid], rfl⟩
      · have hnone := symOfSid_eq_none.2 hsid
        rw [hy, symOfSid_sidOf] at hnone
        cases hnone
    · exact absurd ((exec_epush_known_status hsid h).1.symm.trans ht) hs
  · rw [(exec_efin_status h).1] at ht
    cases ht
  · have hfill : fill s = .next t := h
    have hest : t.enc.est = s.enc.est := by rw [fill_frame hfill]
    exact absurd (hest.symm.trans ht) hs
  · obtain ⟨henc, -⟩ := exec_decoder_leaves hdec h
    exact absurd (henc ▸ ht) hs

theorem derr_of_endScan_failed {e : ScanEnd} {s : State} (h : (endScan e s).dec.dst = .failed) :
    (endScan e s).dec.derr = .invalidCode ∨ (endScan e s).dec.derr = .endOfDigits := by
  cases e with
  | success => cases h
  | invalidCode => exact .inl rfl
  | endOfDigits => exact .inr rfl

/-- Only the unused pattern's group takes the decoder into `FAILED`. -/
theorem eq_none_of_scanGroup_failed {o : Option Sym} {s : State} (hs : s.dec.dst ≠ .failed)
    (ht : (scanGroup o s).dec.dst = .failed) :
    o = none ∧ (scanGroup o s).dec.derr = .invalidCode := by
  unfold scanGroup at ht ⊢
  cases haction : groupAction o with
  | emit sid =>
    rw [haction] at ht
    exact absurd ht hs
  | stop e =>
    rw [haction] at ht
    obtain ⟨ho, rfl⟩ | ⟨-, rfl⟩ := eq_of_groupAction_stop haction
    · exact ⟨ho, rfl⟩
    · cases ht

/-- Settles O47: of the encoder's instructions a push alone, of the decoder's a scan's end. -/
theorem onlyNamedCausesEnterFailed : Obligations.OnlyNamedCausesEnterFailed := by
  intro i s t h
  refine ⟨eq_epush_seven_of_enc_failed h, fun hs ht => ?_⟩
  obtain henc | rfl | ⟨b, rfl⟩ | rfl | ⟨o, rfl⟩ := encoderInstr_or_decoderInstr i
  · obtain ⟨hdec, -⟩ := exec_encoder_leaves henc h
    exact absurd (hdec ▸ ht) hs
  · cases h
    cases ht
  · obtain ⟨-, -, rfl⟩ := exec_dbyte_eq_next.1 h
    exact absurd ht hs
  · obtain ⟨-, rfl⟩ := exec_drun_eq_next.1 h
    exact .inl ⟨rfl, derr_of_endScan_failed ht⟩
  · rw [exec_instrOfGroup] at h
    cases h
    obtain ⟨rfl, hderr⟩ := eq_none_of_scanGroup_failed hs ht
    exact .inr ⟨rfl, hderr⟩

/-! ### What the host sees of a push and a load (R23, R42) -/

theorem sidOf_ne_seven (y : Sym) : sidOf y ≠ 7 := by
  cases y <;> decide

/-- Settles O59: a known push writes `ACC`, `CNT` and `OUT`, a load `IN`, and the host reads none of
them. -/
theorem pushesAndLoadsAreInvisible : Obligations.PushesAndLoadsAreInvisible := by
  intro s t
  constructor
  · intro y h
    obtain ⟨-, ⟨hseven, -⟩ | ⟨z, -, ⟨-, -, rfl⟩ | ⟨-, -, rfl⟩⟩⟩ := exec_epush_eq_next h
    · exact absurd hseven (sidOf_ne_seven y)
    · rfl
    · rfl
  · intro b h
    obtain ⟨-, -, rfl⟩ := exec_dbyte_eq_next.1 h
    rfl

/-! ### What a unit's commands do not read (R60, R159) -/

/-- A state with other values for what no encoder command reads: the decoder unit, `DLOG` and the
inputs still waiting. -/
def withDecoderSide (d : Dec) (l : List (List Sid)) (p : List HostInput) (s : State) : State :=
  { s with dec := d, dlog := l, port := p }

/-- A state with other values for what no decoder command reads: the encoder unit, `ELOG`, the
inputs still waiting and `FILLER_BIT`. -/
def withEncoderSide (e : Enc) (l : List (List Byte)) (p : List HostInput) (b : Bool)
    (s : State) : State :=
  { s with enc := e, elog := l, port := p, cfg := { s.cfg with fillerBit := b } }

/-- The encoder's commands (R77). -/
abbrev EncoderCommand (i : Instr) : Prop :=
  i = .estart ∨ (∃ sid, i = .epush sid) ∨ i = .efin

/-- The decoder's commands (R78). -/
abbrev DecoderCommand (i : Instr) : Prop :=
  i = .dstart ∨ (∃ b, i = .dbyte b) ∨ i = .drun

theorem EncoderCommand.encoderInstr {i : Instr} (h : EncoderCommand i) : EncoderInstr i := by
  obtain rfl | ⟨sid, rfl⟩ | rfl := h
  · exact .inl rfl
  · exact .inr (.inl ⟨sid, rfl⟩)
  · exact .inr (.inr (.inl rfl))

theorem DecoderCommand.decoderInstr {i : Instr} (h : DecoderCommand i) : DecoderInstr i := by
  obtain rfl | ⟨b, rfl⟩ | rfl := h
  · exact .inl rfl
  · exact .inr (.inl ⟨b, rfl⟩)
  · exact .inr (.inr (.inl rfl))

/-- A push that answers has room for the flush it has to do (R103). -/
theorem outHasRoom_of_exec_epush {sid : Sid} {s t : State} (h : exec (.epush sid) s = .next t)
    (hfull : s.enc.cnt = 24#5) : outHasRoom s = true := by
  obtain ⟨hactive, -⟩ := exec_epush_eq_next h
  cases hroom : outHasRoom s with
  | true => rfl
  | false =>
    rw [exec_epush_eq_refused.2 (.inr ⟨hactive, hfull, hroom, rfl⟩)] at h
    cases h

section

variable (d : Dec) (ld : List (List Sid)) (e : Enc) (le : List (List Byte)) (p : List HostInput)
  (b : Bool)

theorem exec_epush_withDecoderSide {sid : Sid} {s t : State} (h : exec (.epush sid) s = .next t) :
    exec (.epush sid) (withDecoderSide d ld p s) = .next (withDecoderSide d ld p t) := by
  obtain ⟨hactive, ⟨rfl, rfl⟩ | ⟨y, rfl, ⟨-, hle, rfl⟩ | ⟨hfull, hroom, rfl⟩⟩⟩ :=
    exec_epush_eq_next h
  · have hroom := outHasRoom_of_exec_epush h
    exact exec_epush_unknown hactive hroom
  · have hle21 : s.enc.cnt.toNat ≤ 21 := by omega
    exact exec_epush_of_le y hactive hle21
  · exact exec_epush_of_full y hactive hfull hroom

theorem append_withDecoderSide {bits : List Bool} {s t : State} (h : append bits s = .next t) :
    append bits (withDecoderSide d ld p s) = .next (withDecoderSide d ld p t) := by
  obtain ⟨hne, hle, rfl⟩ | ⟨hfull, hroom, hle, rfl⟩ := append_eq_next.1 h
  · exact append_of_le hne hle
  · exact append_of_full hfull hroom hle

theorem fillTimes_withDecoderSide {n : Nat} {s t : State} (h : fillTimes n s = .next t) :
    fillTimes n (withDecoderSide d ld p s) = .next (withDecoderSide d ld p t) := by
  induction n generalizing s with
  | zero =>
    cases h
    rfl
  | succ n ih =>
    obtain ⟨u, hu, ht⟩ := andThen_eq_next.1 h
    exact andThen_eq_next.2 ⟨_, append_withDecoderSide d ld p hu, ih ht⟩

/-- An encoder command gives the same result whatever the decoder unit and the waiting inputs are
(R60). -/
theorem exec_withDecoderSide {i : Instr} {s t : State} (hi : EncoderCommand i)
    (h : exec i s = .next t) :
    exec i (withDecoderSide d ld p s) = .next (withDecoderSide d ld p t) := by
  obtain rfl | ⟨sid, rfl⟩ | rfl := hi
  · cases h
    rfl
  · exact exec_epush_withDecoderSide d ld p h
  · obtain ⟨hactive, u, hfill, rfl⟩ := exec_efin_eq_next.1 h
    exact exec_efin_eq_next.2 ⟨hactive, _, fillTimes_withDecoderSide d ld p hfill, rfl⟩

theorem endScan_withEncoderSide (how : ScanEnd) (s : State) :
    endScan how (withEncoderSide e le p b s) = withEncoderSide e le p b (endScan how s) := by
  cases how <;> rfl

/-- A decoder command gives the same result whatever the encoder unit, the waiting inputs and
`FILLER_BIT` are (R60, R159). -/
theorem exec_withEncoderSide {i : Instr} {s t : State} (hi : DecoderCommand i)
    (h : exec i s = .next t) :
    exec i (withEncoderSide e le p b s) = .next (withEncoderSide e le p b t) := by
  obtain rfl | ⟨x, rfl⟩ | rfl := hi
  · cases h
    rfl
  · obtain ⟨hload, hroom, rfl⟩ := exec_dbyte_eq_next.1 h
    exact exec_dbyte_eq_next.2 ⟨hload, hroom, rfl⟩
  · obtain ⟨hload, rfl⟩ := exec_drun_eq_next.1 h
    exact exec_drun_eq_next.2 ⟨hload, (endScan_withEncoderSide e le p b _ _).symm⟩

end

/-- Settles O24: `FILLER_BIT` is among what `DRUN` does not read. -/
theorem drunDoesNotReadFillerBit : Obligations.DrunDoesNotReadFillerBit := by
  intro s t b h
  have hrun : DecoderCommand .drun := .inr (.inr rfl)
  have hframe := exec_decoder_frame hrun.decoderInstr h
  refine (exec_withEncoderSide s.enc s.elog s.port b hrun h).trans ?_
  rw [hframe]
  rfl

/-! ### Order of commands (R59, R60) -/

section

variable {i j : Instr} {s u : State} (hi : EncoderCommand i) (hj : DecoderCommand j)

include hi hj

/-- The encoder command can be done second. -/
theorem execAll_swap_to_decoder_first (h : execAll [i, j] s = .next u) :
    execAll [j, i] s = .next u := by
  simp only [execAll_cons, andThen_eq_next, execAll_nil, Host.Outcome.next.injEq] at h ⊢
  obtain ⟨t, hit, u, hju, rfl⟩ := h
  have ht := exec_encoder_frame hi.encoderInstr hit
  have hu := exec_decoder_frame hj.decoderInstr hju
  have hjs := exec_withEncoderSide s.enc s.elog s.port s.cfg.fillerBit hj hju
  have hiv := exec_withDecoderSide u.dec u.dlog s.port hi hit
  rw [show withEncoderSide s.enc s.elog s.port s.cfg.fillerBit t = s by rw [ht]; rfl] at hjs
  rw [show withDecoderSide u.dec u.dlog s.port t = u by rw [hu, ht]; rfl] at hiv
  refine ⟨_, hjs, u, ?_, rfl⟩
  rw [← hiv, hu, ht]
  rfl

/-- The decoder command can be done second. -/
theorem execAll_swap_to_encoder_first (h : execAll [j, i] s = .next u) :
    execAll [i, j] s = .next u := by
  simp only [execAll_cons, andThen_eq_next, execAll_nil, Host.Outcome.next.injEq] at h ⊢
  obtain ⟨t, hjt, u, hiu, rfl⟩ := h
  have ht := exec_decoder_frame hj.decoderInstr hjt
  have hu := exec_encoder_frame hi.encoderInstr hiu
  have his := exec_withDecoderSide s.dec s.dlog s.port hi hiu
  have hjv := exec_withEncoderSide u.enc u.elog s.port s.cfg.fillerBit hj hjt
  rw [show withDecoderSide s.dec s.dlog s.port t = s by rw [ht]; rfl] at his
  rw [show withEncoderSide u.enc u.elog s.port s.cfg.fillerBit t = u by rw [hu, ht]; rfl] at hjv
  refine ⟨_, his, u, ?_, rfl⟩
  rw [← hjv, hu, ht]
  rfl

end

/-- Settles O44: neither command reads or writes what the other writes. -/
theorem commandsOfTheTwoUnitsCommute : Obligations.CommandsOfTheTwoUnitsCommute :=
  fun _ _ _ hi hj _ =>
    ⟨execAll_swap_to_decoder_first hi hj, execAll_swap_to_encoder_first hi hj⟩

/-- A command does not read the inputs waiting behind it (R59). -/
theorem exec_withPort {i : Instr} {s t : State} (hi : EncoderCommand i ∨ DecoderCommand i)
    (p : List HostInput) (h : exec i s = .next t) :
    exec i { s with port := p } = .next { t with port := p } := by
  obtain hi | hi := hi
  · have hframe := exec_encoder_frame hi.encoderInstr h
    refine (exec_withDecoderSide s.dec s.dlog p hi h).trans ?_
    rw [hframe]
    rfl
  · have hframe := exec_decoder_frame hi.decoderInstr h
    refine (exec_withEncoderSide s.enc s.elog p s.cfg.fillerBit hi h).trans ?_
    rw [hframe]
    rfl

/-- What the host presents for an instruction is a command's word, and the next step runs it (R77,
R78). -/
theorem step_of_inputOf {i : Instr} {x : HostInput} {rest : List HostInput} {s : State}
    (hx : inputOf i = some x) (hm : s.micro = none) (hp : s.port = x :: rest) :
    (EncoderCommand i ∨ DecoderCommand i) ∧ step s = exec i { s with port := rest } := by
  cases i with
  | estart =>
    cases hx
    exact ⟨.inl (.inl rfl), step_of_decode_ok (fetch_ecmd hm hp) decodeEcmd_start⟩
  | epush sid =>
    cases hx
    exact ⟨.inl (.inr (.inl ⟨sid, rfl⟩)),
      step_of_decode_ok (fetch_ecmd hm hp) (decodeEcmd_epushWord sid)⟩
  | efin =>
    cases hx
    exact ⟨.inl (.inr (.inr rfl)), step_of_decode_ok (fetch_ecmd hm hp) decodeEcmd_fin⟩
  | dstart =>
    cases hx
    exact ⟨.inr (.inl rfl), step_of_decode_ok (fetch_dcmd hm hp) decodeDcmd_start⟩
  | dbyte b =>
    cases hx
    exact ⟨.inr (.inr (.inl ⟨b, rfl⟩)),
      step_of_decode_ok (fetch_dcmd hm hp) (decodeDcmd_dbyteWord b)⟩
  | drun =>
    cases hx
    exact ⟨.inr (.inr (.inr rfl)), step_of_decode_ok (fetch_dcmd hm hp) decodeDcmd_run⟩
  | symInk0 | symInk1 | symInk2 | symInk3 | symInk4 | symLineEnd | symStreamEnd | symUnused
  | filler => cases hx

/-- Settles O39: by induction on the program; each step takes one word and does not read the
rest. -/
theorem presentedProgramRunsItsInstructions : Obligations.PresentedProgramRunsItsInstructions := by
  intro prog
  induction prog with
  | nil =>
    intro words rest s t hwords hm hp
    obtain rfl : words = [] := by simpa using hwords
    have hs : { s with port := rest } = s := by rw [show rest = s.port from hp.symm]
    rw [hs, execAll_nil]
    rfl
  | cons i prog ih =>
    intro words rest s t hwords hm hp
    obtain ⟨x, ws, rfl⟩ : ∃ x ws, words = x :: ws :=
      List.exists_cons_of_ne_nil (by rintro rfl; cases hwords)
    simp only [List.map_cons, List.cons.injEq] at hwords
    obtain ⟨hx, hws⟩ := hwords
    obtain ⟨hi, hstep⟩ := step_of_inputOf hx hm hp
    have hrest : ∀ u, exec i { s with port := ws ++ rest } = .next u →
        (runSteps prog.length u = .next t ↔ execAll prog { u with port := rest } = .next t) := by
      intro u hu
      obtain ⟨-, hport, hmicro⟩ := exec_leaves_inputs hu
      exact ih ws rest u t hws (hmicro.trans hm) hport
    rw [List.length_cons, runSteps, hstep, execAll_cons, andThen_eq_next, andThen_eq_next]
    constructor
    · rintro ⟨u, hu, hrun⟩
      have hv := exec_withPort (s := { s with port := ws ++ rest }) hi rest hu
      exact ⟨_, hv, (hrest u hu).1 hrun⟩
    · rintro ⟨u, hu, hrun⟩
      have hv := exec_withPort (s := { s with port := rest }) hi (ws ++ rest) hu
      obtain ⟨-, hport, -⟩ := exec_leaves_inputs hu
      refine ⟨_, hv, (hrest _ hv).2 ?_⟩
      rw [← hrun, ← show u.port = rest from hport]

end Sys2Proof.Machine

/-! ## Proofs: the invariants (10_state.md R33, R45, R30, R63)

### The encoder's invariant -/

namespace Sys2Proof.Machine

theorem capAllows_mono {cap : Option Nat} {m n : Nat} (hmn : m ≤ n) (h : capAllows cap n = true) :
    capAllows cap m = true := by
  cases cap with
  | none => rfl
  | some c => exact decide_eq_true (hmn.trans (of_decide_eq_true h))

theorem capAllows_zero (cap : Option Nat) : capAllows cap 0 = true := by
  cases cap <;> simp [capAllows]

/-- A unit whose staging state is released meets the invariant, in whatever session status goes with
its error code (R27, R33). -/
theorem encInv_released (c : Config) {est : EncStatus} {eerr : EncError}
    (herr : eerr = .unknownSymbol ↔ est = .failed) : EncInv c ⟨0, 0, [], est, eerr⟩ where
  cnt_le := by simp
  cnt_whole_symbols := by simp
  out_whole_blocks := rfl
  acc_clear := by simp
  released := by simp
  fresh := by simp
  error_iff := herr
  out_fits := capAllows_zero _

theorem encInv_opened (c : Config) : EncInv c ⟨0, 0, [], .active, .noError⟩ :=
  encInv_released c (by simp)

/-- An append of one symbol's code keeps the invariant, from a block that holds whole symbols, with
`OUT` as it is or a flush just done (R33). -/
theorem encInv_withBits {c : Config} {s : State} {bits : List Bool}
    (hactive : s.enc.est = .active) (herr : s.enc.eerr = .unknownSymbol ↔ s.enc.est = .failed)
    (hcnt : s.enc.cnt.toNat % 3 = 0) (hout : s.enc.out.length % 3 = 0)
    (hclear : ∀ j, s.enc.cnt.toNat ≤ j → s.enc.acc.getLsbD j = false)
    (hfits : capAllows c.capOut s.enc.out.length = true)
    (hlen : bits.length = 3) (hle : s.enc.cnt.toNat + bits.length ≤ 24) :
    EncInv c (withBits bits s).enc := by
  have hnew := toNat_cnt_withBits hle
  refine ⟨?_, fun _ => ?_, hout, fun j hj => ?_, fun hended => absurd hactive hended,
    fun _ hzero => ?_, herr, hfits⟩
  · rwa [hnew]
  · rw [hnew, hlen, Nat.add_mod_right]
    exact hcnt
  · rw [hnew] at hj
    rw [getLsbD_writeBits _ _ _ _ hle, if_neg (by omega)]
    exact hclear j (by omega)
  · rw [hzero] at hnew
    rw [hlen] at hnew
    cases hnew

theorem exec_epush_keeps_encInv {sid : Sid} {s t : State} (hinv : EncInv s.cfg s.enc)
    (h : exec (.epush sid) s = .next t) : EncInv s.cfg t.enc := by
  obtain ⟨hactive, ⟨-, rfl⟩ | ⟨y, -, ⟨-, hle, rfl⟩ | ⟨-, hroom, rfl⟩⟩⟩ := exec_epush_eq_next h
  · exact encInv_released _ (by simp)
  · exact encInv_withBits hactive hinv.error_iff (hinv.cnt_whole_symbols hactive)
      hinv.out_whole_blocks hinv.acc_clear hinv.out_fits (length_symBitsOf _ y) hle
  · have hlen : (flushed s).enc.out.length = s.enc.out.length + 3 := by simp
    have hout : (flushed s).enc.out.length % 3 = 0 := by
      rw [hlen, Nat.add_mod_right]
      exact hinv.out_whole_blocks
    exact encInv_withBits (s := flushed s) hactive hinv.error_iff rfl hout (by simp)
      (by rw [hlen]; exact hroom) (length_symBitsOf _ y) (by simp [length_symBitsOf])

theorem append_out_length_mod {bits : List Bool} {s t : State} (h : append bits s = .next t) :
    t.enc.out.length % 3 = s.enc.out.length % 3 := by
  obtain ⟨-, -, rfl⟩ | ⟨-, -, -, rfl⟩ := append_eq_next.1 h
  · rfl
  · rw [List.length_append, length_leBytes, Nat.add_mod_right]

/-- Fillers flush whole blocks (R30). -/
theorem fillTimes_out_length_mod {n : Nat} {s t : State} (h : fillTimes n s = .next t) :
    t.enc.out.length % 3 = s.enc.out.length % 3 := by
  induction n generalizing s with
  | zero =>
    cases h
    rfl
  | succ n ih =>
    obtain ⟨u, hu, ht⟩ := andThen_eq_next.1 h
    rw [ih ht, append_out_length_mod hu]

/-! ### The decoder's invariant -/

theorem decInv_opened (c : Config) : DecInv c ⟨[], [], 0, .loading, .noError⟩ where
  fresh := by simp
  released := by simp
  sids := by simp
  error_iff := by simp
  inp_fits := capAllows_zero _

/-- The end of a scan of an open session meets the invariant, where `DOUT` holds `DGRP` sids of
symbols other than the terminator (R37, R38, R45). -/
theorem decInv_endScan {c : Config} {s : State} (how : ScanEnd) (hload : s.dec.dst = .loading)
    (herr : s.dec.derr = .noError ↔ s.dec.dst ≠ .failed) (hgrp : s.dec.dgrp = s.dec.dout.length)
    (hsids : ∀ x ∈ s.dec.dout, x.toNat ≤ 5) : DecInv c (endScan how s).dec := by
  have hno : s.dec.derr = .noError := herr.2 (by rw [hload]; nofun)
  cases how with
  | success => exact ⟨nofun, fun _ => ⟨rfl, hgrp⟩, hsids, by simpa using hno, capAllows_zero _⟩
  | invalidCode | endOfDigits =>
    exact ⟨nofun, fun _ => ⟨rfl, hgrp⟩, hsids, by simp, capAllows_zero _⟩

theorem endScan_dlog_mem {how : ScanEnd} {s : State} {g : List Sid}
    (h : g ∈ (endScan how s).dlog) : g ∈ s.dlog ∨ g = s.dec.dout := by
  cases how with
  | success => simpa using h
  | invalidCode | endOfDigits => exact .inl h

/-! ### Every step (R33, R45) -/

/-- The inputs waiting are in no invariant. -/
theorem inv_withPort {s : State} (h : Inv s) (p : List HostInput) : Inv { s with port := p } :=
  ⟨h.enc, h.dec, h.elog, h.dlog, h.cfg, h.micro⟩

theorem encoderCommand_keeps_inv {i : Instr} {s t : State} (hi : EncoderCommand i) (hinv : Inv s)
    (h : exec i s = .next t) : Inv t := by
  obtain ⟨hdec, hdlog⟩ := exec_encoder_leaves hi.encoderInstr h
  obtain ⟨hcfg, -, hmicro⟩ := exec_leaves_inputs h
  have build : EncInv s.cfg t.enc → (∀ a ∈ t.elog, a.length % 3 = 0) → Inv t := fun henc helog =>
    ⟨hcfg ▸ henc, by rw [hcfg, hdec]; exact hinv.dec, helog, hdlog ▸ hinv.dlog,
      hcfg ▸ hinv.cfg, hmicro.trans hinv.micro⟩
  obtain rfl | ⟨sid, rfl⟩ | rfl := hi
  · cases h
    exact build (encInv_opened _) hinv.elog
  · have helog := exec_elog_of_ne_efin (i := .epush sid) nofun h
    exact build (exec_epush_keeps_encInv hinv.enc h) (helog ▸ hinv.elog)
  · obtain ⟨hactive, u, hfill, rfl⟩ := exec_efin_eq_next.1 h
    have herr : u.enc.eerr ≠ .unknownSymbol := by
      rw [fillTimes_frame hfill]
      intro herr
      rw [hinv.enc.error_iff.1 herr] at hactive
      cases hactive
    have helog : u.elog = s.elog := by rw [fillTimes_frame hfill]
    refine build (encInv_released _ (by simpa using herr)) fun a ha => ?_
    rw [commitArtifact_elog, helog, List.mem_append, List.mem_singleton] at ha
    obtain ha | rfl := ha
    · exact hinv.elog a ha
    · exact (fillTimes_out_length_mod hfill).trans hinv.enc.out_whole_blocks

theorem decoderCommand_keeps_inv {i : Instr} {s t : State} (hi : DecoderCommand i) (hinv : Inv s)
    (h : exec i s = .next t) : Inv t := by
  obtain ⟨henc, helog⟩ := exec_decoder_leaves hi.decoderInstr h
  obtain ⟨hcfg, -, hmicro⟩ := exec_leaves_inputs h
  have build : DecInv s.cfg t.dec → (∀ g ∈ t.dlog, ∀ x ∈ g, x.toNat ≤ 5) → Inv t :=
    fun hdec hdlog => ⟨by rw [hcfg, henc]; exact hinv.enc, hcfg ▸ hdec, helog ▸ hinv.elog, hdlog,
      hcfg ▸ hinv.cfg, hmicro.trans hinv.micro⟩
  obtain rfl | ⟨b, rfl⟩ | rfl := hi
  · cases h
    exact build (decInv_opened _) hinv.dlog
  · obtain ⟨hload, hroom, rfl⟩ := exec_dbyte_eq_next.1 h
    refine build ⟨hinv.dec.fresh, fun hended => absurd hload hended, hinv.dec.sids,
      hinv.dec.error_iff, ?_⟩ hinv.dlog
    rw [loadByte_dec, List.length_append]
    exact hroom
  · obtain ⟨hload, rfl⟩ := exec_drun_eq_next.1 h
    obtain ⟨dout, hdout, hgrp, hsids⟩ := scan_emits s.cfg.code (digits s.cfg.wMin s.dec.inp) 0 []
    rw [List.nil_append] at hdout
    rw [← hdout] at hsids
    rw [← hdout, Nat.zero_add] at hgrp
    refine build (decInv_endScan _ hload hinv.dec.error_iff hgrp hsids) fun g hg => ?_
    obtain hg | rfl := endScan_dlog_mem hg
    · exact hinv.dlog g hg
    · exact hsids

theorem encoderCommand_of_decode {c : Config} {w : BitVec 5} {i : Instr}
    (h : decode c (.ecmd w) = .ok i) : EncoderCommand i := by
  obtain ⟨rfl, -⟩ | ⟨sid, rfl, -⟩ | ⟨rfl, -⟩ := decodeEcmd_eq_ok h
  · exact .inl rfl
  · exact .inr (.inl ⟨sid, rfl⟩)
  · exact .inr (.inr rfl)

theorem decoderCommand_of_decode {c : Config} {w : BitVec 10} {i : Instr}
    (h : decode c (.dcmd w) = .ok i) : DecoderCommand i := by
  obtain ⟨rfl, -⟩ | ⟨b, rfl, -⟩ | ⟨rfl, -⟩ := decodeDcmd_eq_ok h
  · exact .inl rfl
  · exact .inr (.inl ⟨b, rfl⟩)
  · exact .inr (.inr rfl)

/-- Settles O41: the invariant shuts the data codes out, so a step is idle, the reset input or a
command of one unit, which keeps that unit's invariant and leaves the other unit. -/
theorem stepKeepsInvariants : Obligations.StepKeepsInvariants := by
  intro s t hinv h
  obtain ⟨-, -, rfl⟩ | ⟨rest, -, -, rfl⟩ | ⟨w, rest, i, -, -, hd, he⟩ |
    ⟨w, rest, i, -, -, hd, he⟩ | ⟨m, i, hm, -, -⟩ := step_eq_next h
  · exact hinv
  · exact ⟨encInv_opened _, decInv_opened _, hinv.elog, hinv.dlog, hinv.cfg, hinv.micro⟩
  · exact encoderCommand_keeps_inv (encoderCommand_of_decode hd) (inv_withPort hinv rest) he
  · exact decoderCommand_keeps_inv (decoderCommand_of_decode hd) (inv_withPort hinv rest) he
  · rw [hinv.micro] at hm
    cases hm

/-! ### Power-on (R34, R43, R191) -/

theorem inv_powerOn {c : Config} (h : c.wf = true) : Inv (State.powerOn c) where
  enc := encInv_opened c
  dec := decInv_opened c
  elog := by simp
  dlog := by simp
  cfg := h
  micro := rfl

/-- The parameters of `State.reset` are legal whatever its free values are (R7). -/
theorem reference_wf : Config.reference.wf = true := by
  rw [Config.wf, Config.reference, Laws.ofChoices_wf]
  rfl

/-- Settles O40: both units in their reset states, both logs empty, the parameters legal. -/
theorem powerOnMeetsInvariants : Obligations.PowerOnMeetsInvariants :=
  ⟨fun _ => inv_powerOn, ⟨_, reference_wf, rfl⟩, inv_powerOn reference_wf⟩

/-! ### No fault (R125) -/

/-- An append to a full block or to one with room for its bits answers or is refused. -/
theorem append_ne_fault {bits : List Bool} {s : State} {r : Fault} (hlen : bits.length ≤ 24)
    (h : s.enc.cnt = 24#5 ∨ s.enc.cnt.toNat + bits.length ≤ 24) : append bits s ≠ .fault r := by
  by_cases hfull : s.enc.cnt = 24#5
  · cases hroom : outHasRoom s with
    | true => rw [append_of_full hfull hroom hlen]; nofun
    | false => rw [append_without_room hfull hroom]; nofun
  · rw [append_of_le hfull (h.resolve_left hfull)]
    nofun

/-- A push of the unassigned sid answers or is refused, whatever the count. -/
theorem exec_epush_unknown_ne_fault {s : State} {r : Fault} (hactive : s.enc.est = .active) :
    exec (.epush 7) s ≠ .fault r := by
  by_cases hroom : s.enc.cnt = 24#5 → outHasRoom s = true
  · rw [exec_epush_unknown hactive hroom]
    nofun
  · obtain ⟨hfull, hnone⟩ := Classical.not_imp.1 hroom
    rw [exec_epush_eq_refused.2 (.inr ⟨hactive, hfull, Bool.eq_false_of_not_eq_true hnone, rfl⟩)]
    nofun

/-- Under the invariant the block is full or has room for a whole symbol. -/
theorem exec_epush_ne_fault {sid : Sid} {s : State} {r : Fault} (hinv : EncInv s.cfg s.enc) :
    exec (.epush sid) s ≠ .fault r := by
  by_cases hactive : s.enc.est = .active
  · cases hsid : symOfSid sid with
    | none =>
      rw [symOfSid_eq_none.1 hsid]
      exact exec_epush_unknown_ne_fault hactive
    | some y =>
      have hmod : s.enc.cnt.toNat % 3 = 0 := hinv.cnt_whole_symbols hactive
      have hle : s.enc.cnt.toNat ≤ 24 := hinv.cnt_le
      rw [← sidOf_of_symOfSid hsid, exec_epush_known y hactive]
      refine append_ne_fault (by rw [length_symBitsOf]; omega) ?_
      rw [cnt_eq_24_iff, length_symBitsOf]
      omega
  · rw [exec_epush_of_ended sid hactive]
    nofun

theorem exec_efin_ne_fault {s : State} {r : Fault} (hle : s.enc.cnt.toNat ≤ 24) :
    exec .efin s ≠ .fault r := by
  by_cases hactive : s.enc.est = .active
  · obtain hzero | hpos := cnt_eq_zero_or_pos s.enc.cnt
    · rw [exec_efin_of_empty hactive hzero]
      nofun
    · cases hroom : outHasRoom s with
      | true => rw [exec_efin_of_room hactive hpos hle hroom]; nofun
      | false => rw [exec_efin_without_room hactive hpos hle hroom]; nofun
  · rw [exec_efin_of_ended hactive]
    nofun

theorem encoderCommand_ne_fault {i : Instr} {s : State} {r : Fault} (hi : EncoderCommand i)
    (hinv : EncInv s.cfg s.enc) : exec i s ≠ .fault r := by
  obtain rfl | ⟨sid, rfl⟩ | rfl := hi
  · nofun
  · exact exec_epush_ne_fault hinv
  · exact exec_efin_ne_fault hinv.cnt_le

/-- The decoder appends to no accumulator: none of its commands faults, in any state. -/
theorem decoderCommand_ne_fault {i : Instr} {s : State} {r : Fault} (hi : DecoderCommand i) :
    exec i s ≠ .fault r := by
  obtain rfl | ⟨b, rfl⟩ | rfl := hi
  · nofun
  · by_cases hload : s.dec.dst = .loading
    · rw [exec_dbyte_of_loading b hload]
      split <;> nofun
    · rw [exec_dbyte_of_ended b hload]
      nofun
  · by_cases hload : s.dec.dst = .loading
    · rw [exec_drun_eq_next.2 ⟨hload, rfl⟩]
      nofun
    · rw [exec_drun_of_ended hload]
      nofun

/-- A step that faults with the inner code input empty runs a command that faults. -/
theorem exec_fault_of_step_fault {s : State} {r : Fault} (hm : s.micro = none)
    (h : step s = .fault r) :
    ∃ i rest, (EncoderCommand i ∨ DecoderCommand i) ∧
      exec i { s with port := rest } = .fault r := by
  cases hp : s.port with
  | nil =>
    rw [stepWithoutInputChangesNothing s hm hp] at h
    cases h
  | cons x rest =>
    cases x with
    | rst =>
      rw [step_of_fetch_rst (fetch_rst hm hp)] at h
      cases h
    | ecmd w =>
      cases hd : decode s.cfg (.ecmd w) with
      | ok i =>
        rw [step_of_decode_ok (fetch_ecmd hm hp) hd] at h
        exact ⟨i, rest, .inl (encoderCommand_of_decode hd), h⟩
      | error e =>
        rw [step_of_decode_error (fetch_ecmd hm hp) hd] at h
        cases h
    | dcmd w =>
      cases hd : decode s.cfg (.dcmd w) with
      | ok i =>
        rw [step_of_decode_ok (fetch_dcmd hm hp) hd] at h
        exact ⟨i, rest, .inr (decoderCommand_of_decode hd), h⟩
      | error e =>
        rw [step_of_decode_error (fetch_dcmd hm hp) hd] at h
        cases h

/-- Settles O42: under the invariant a push finds room for its bits in the accumulator or flushes
first, and so does a filler of `EFIN`. -/
theorem stepNeverFaultsUnderInvariants : Obligations.StepNeverFaultsUnderInvariants := by
  intro s hinv r h
  obtain ⟨i, rest, henc | hdec, he⟩ := exec_fault_of_step_fault hinv.micro h
  · exact encoderCommand_ne_fault henc (inv_withPort hinv rest).enc he
  · exact decoderCommand_ne_fault hdec he

end Sys2Proof.Machine

/-! ## Proofs: whole encoder sessions (40_encoder.md section 4, R124, R127, R128)

### The stream bits of a symbol sequence (R110) -/

namespace Sys2Proof.Machine

@[simp] theorem length_codeBits (v : Sym3) : (codeBits v).length = 3 := rfl

theorem outHasRoom_eq (s : State) :
    outHasRoom s = capAllows s.cfg.capOut (s.enc.out.length + 3) := rfl

theorem blockCount_eq (n : Nat) : blockCount n = (n + 23) / 24 := rfl

theorem symbolBits_append (c : Config) (xs ys : List Sym) :
    symbolBits c (xs ++ ys) = symbolBits c xs ++ symbolBits c ys :=
  List.flatMap_append

theorem symbolBits_singleton (c : Config) (y : Sym) : symbolBits c [y] = symBitsOf c y :=
  List.flatMap_singleton _ _

@[simp] theorem length_symbolBits (c : Config) (syms : List Sym) :
    (symbolBits c syms).length = 3 * syms.length := by
  induction syms with
  | nil => rfl
  | cons y syms ih =>
    rw [symbolBits, List.flatMap_cons, List.length_append, ← symbolBits, ih, length_symBitsOf,
      List.length_cons]
    omega

theorem length_paddedBits (c : Config) (bits : List Bool) :
    (paddedBits c bits).length = 24 * blockCount bits.length := by
  rw [paddedBits, List.length_append, List.length_replicate, blockBits, blockCount_eq]
  omega

/-- The padding starts where the stream ends (R110). -/
theorem getElem?_paddedBits_of_lt {c : Config} {bits : List Bool} {i : Nat} (h : i < bits.length) :
    (paddedBits c bits)[i]? = bits[i]? :=
  List.getElem?_append_left h

theorem length_paddedBits_mod (c : Config) (bits : List Bool) :
    (paddedBits c bits).length % 8 = 0 := by
  rw [length_paddedBits]
  omega

/-- Settles O52: a byte for every 8 bits of the padded stream. -/
theorem artifactLengthIsWholeBlocks : Obligations.ArtifactLengthIsWholeBlocks := by
  intro c syms
  rw [encodeArtifact, length_pack, length_paddedBits, length_symbolBits, blockCount_eq]
  omega

/-- Bit i of the number the decoder reads is bit i of the padded stream, 0 above it (R129). -/
theorem testBit_le_encodeArtifact (c : Config) (syms : List Sym) (i : Nat) :
    (le (encodeArtifact c syms)).testBit i = (paddedBits c (symbolBits c syms)).getD i false :=
  testBit_le_pack _ (length_paddedBits_mod _ _) i

/-- Settles O53: the packing of a bit string read as a number, and the number read by its bytes. -/
theorem artifactHoldsStreamInOrder : Obligations.ArtifactHoldsStreamInOrder := by
  intro c syms i hi
  have hbit : (paddedBits c (symbolBits c syms))[i]? =
      some ((le (encodeArtifact c syms)).testBit i) := by
    rw [testBit_le_encodeArtifact, List.getD_eq_getElem _ _ hi, List.getElem?_eq_getElem hi]
  exact ⟨by rw [← testBit_le, hbit], hbit⟩

/-! ### What an open session holds (R33 (f), R127) -/

/-- `t` is `s` with an open encoder session that holds the stream bits `bits`: the whole blocks
flushed so far in `OUT`, the bits after them, of which a full block waits for its flush, in
`ACC`. -/
structure Holds (s t : State) (bits : List Bool) : Prop where
  frame : t = { s with enc := t.enc }
  active : t.enc.est = .active
  noError : t.enc.eerr = .noError
  stream : ∃ done, bits = done ++ bufBits t.enc ∧ t.enc.out = pack done ∧
    done.length = 24 * ((bits.length - 1) / 24)

theorem holds_openEnc (s : State) : Holds s (openEnc s) [] :=
  ⟨rfl, rfl, rfl, [], rfl, rfl, rfl⟩

section

variable {s t u : State} {bits : List Bool} (h : Holds s t bits)

include h

theorem Holds.cfg : t.cfg = s.cfg := by
  rw [h.frame]

theorem Holds.cnt : t.enc.cnt.toNat = bits.length - 24 * ((bits.length - 1) / 24) := by
  obtain ⟨done, hbits, -, hdone⟩ := h.stream
  have hlen := congrArg List.length hbits
  rw [List.length_append, length_bufBits] at hlen
  omega

theorem Holds.out_length : t.enc.out.length = 3 * ((bits.length - 1) / 24) := by
  obtain ⟨done, -, hout, hdone⟩ := h.stream
  rw [hout, length_pack, hdone]
  omega

/-- Bits that still fit in the block are added to those held. -/
theorem Holds.of_withBits {new : List Bool} (hpos : new ≠ [])
    (hle : t.enc.cnt.toNat + new.length ≤ 24) :
    Holds s (withBits new t) (bits ++ new) := by
  obtain ⟨done, hbits, hout, hdone⟩ := h.stream
  have hcnt := h.cnt
  have hnew := List.length_pos_of_ne_nil hpos
  refine ⟨by rw [h.frame], h.active, h.noError, done, ?_, hout, ?_⟩
  · rw [bufBits_withBits hle, ← List.append_assoc, ← hbits]
  · rw [hdone, List.length_append]
    omega

/-- Bits that come after a full block are added behind it once it is flushed. -/
theorem Holds.of_withBits_flushed {new : List Bool} (hfull : t.enc.cnt = 24#5) (hpos : new ≠ [])
    (hle : new.length ≤ 24) : Holds s (withBits new (flushed t)) (bits ++ new) := by
  obtain ⟨done, hbits, hout, hdone⟩ := h.stream
  have hcnt := h.cnt
  have hnew := List.length_pos_of_ne_nil hpos
  rw [cnt_eq_24_iff.1 hfull] at hcnt
  refine ⟨by rw [h.frame], h.active, h.noError, bits, ?_, ?_, ?_⟩
  · rw [bufBits_withBits_flushed hle]
  · rw [flushed_out_of_full hfull, hout, ← pack_append _ _ (by omega), ← hbits]
  · rw [List.length_append]
    omega

/-- A push of a known symbol that answers adds its code to the bits held (R101). -/
theorem Holds.of_push {y : Sym} (hpush : exec (.epush (sidOf y)) t = .next u) :
    Holds s u (bits ++ symBitsOf s.cfg y) := by
  rw [exec_epush_known y h.active, h.cfg, append_eq_next] at hpush
  obtain ⟨-, hle, rfl⟩ | ⟨hfull, -, hle, rfl⟩ := hpush
  · exact h.of_withBits nofun hle
  · exact h.of_withBits_flushed hfull nofun hle

/-- A session that holds whole symbols and has room for the blocks before the last one takes the
next symbol (R103). -/
theorem Holds.exists_push (y : Sym) (hwhole : bits.length % 3 = 0)
    (hroom : capAllows s.cfg.capOut (3 * ((bits.length + 2) / 24)) = true) :
    ∃ u, exec (.epush (sidOf y)) t = .next u := by
  have hcnt := h.cnt
  by_cases hfull : t.enc.cnt = 24#5
  · rw [cnt_eq_24_iff.1 hfull] at hcnt
    have hout : outHasRoom t = true := by
      rw [outHasRoom_eq, h.cfg, h.out_length]
      exact capAllows_mono (by omega) hroom
    exact ⟨_, exec_epush_of_full y h.active hfull hout⟩
  · have hne : t.enc.cnt.toNat ≠ 24 := fun h24 => hfull (cnt_eq_24_iff.2 h24)
    exact ⟨_, exec_epush_of_le y h.active (by omega)⟩

/-- Every stream bit stands at its index, in `OUT` or in `ACC` (R53, R127). -/
theorem Holds.getElem? {i : Nat} (hi : i < bits.length) :
    bits[i]? = some (if i < 8 * t.enc.out.length then (byteAt t.enc.out (i / 8)).getLsbD (i % 8)
      else t.enc.acc.getLsbD (i - 8 * t.enc.out.length)) := by
  obtain ⟨done, hbits, hout, hdone⟩ := h.stream
  have hlen : 8 * t.enc.out.length = done.length := by rw [h.out_length, hdone]; omega
  have hcnt := h.cnt
  rw [hlen]
  split
  · next hlt =>
    rw [← testBit_le, hout, testBit_le_pack _ (by omega), hbits, List.getElem?_append_left hlt,
      List.getD_eq_getElem _ _ hlt, List.getElem?_eq_getElem hlt]
  · next hge =>
    rw [hbits, List.getElem?_append_right (by omega), getElem?_bufBits (by omega)]

/-- `EFIN` commits the bits held, filled up to whole blocks with filler bits (R106, R110). -/
theorem Holds.exec_efin
    (hroom : capAllows s.cfg.capOut (3 * blockCount bits.length) = true) :
    exec .efin t = .next { s with
      elog := s.elog ++ [pack (paddedBits s.cfg bits)], enc := ⟨0, 0, [], .done, .noError⟩ } := by
  obtain ⟨done, hbits, hout, hdone⟩ := h.stream
  have hcnt := h.cnt
  have hframe := h.frame
  have hcfg := h.cfg
  have hnoError := h.noError
  have hlast : pack (paddedBits s.cfg bits) = t.enc.out ++ pack (bufBits t.enc ++
      List.replicate (24 * blockCount bits.length - bits.length) s.cfg.fillerBit) := by
    rw [hout, ← pack_append _ _ (by omega), ← List.append_assoc, ← hbits, paddedBits]
  obtain hzero | hpos := cnt_eq_zero_or_pos t.enc.cnt
  · have hnil : bits.length = 0 := by
      rw [hzero] at hcnt
      change 0 = _ at hcnt
      omega
    rw [exec_efin_of_empty h.active hzero, hlast, hnil, bufBits_of_cnt_zero hzero, hframe]
    simp [blockCount_eq, pack, hnoError]
  · have hpad : 24 * blockCount bits.length - bits.length = 24 - t.enc.cnt.toNat := by
      rw [blockCount_eq]
      omega
    have hfits : outHasRoom t = true := by
      rw [outHasRoom_eq, hcfg, h.out_length]
      refine capAllows_mono ?_ hroom
      rw [blockCount_eq]
      omega
    rw [exec_efin_of_room h.active hpos (by omega) hfits, hlast, hpad, lastBlock, hcfg, hframe]
    simp [hnoError]

end

/-! ### The pushes of a session -/

theorem execAll_singleton (i : Instr) (s : State) : execAll [i] s = exec i s := by
  rw [execAll_cons]
  cases exec i s <;> rfl

theorem execAll_pushes_concat (syms : List Sym) (y : Sym) (s : State) :
    execAll (.estart :: pushAll (syms ++ [y])) s =
      andThen (execAll (.estart :: pushAll syms) s) (exec (.epush (sidOf y))) := by
  rw [pushAll, List.map_append, ← List.cons_append, execAll_append]
  exact congrArg (andThen _) (funext fun t => execAll_singleton _ t)

/-- Pushes that answer leave a session that holds the stream bits of their symbols. -/
theorem holds_of_pushes {s t : State} {syms : List Sym}
    (h : execAll (.estart :: pushAll syms) s = .next t) : Holds s t (symbolBits s.cfg syms) := by
  induction syms using List.reverseRecOn generalizing t with
  | nil =>
    cases h
    exact holds_openEnc s
  | append_singleton syms y ih =>
    rw [execAll_pushes_concat, andThen_eq_next] at h
    obtain ⟨u, hu, hpush⟩ := h
    rw [symbolBits_append, symbolBits_singleton]
    exact (ih hu).of_push hpush

/-- With room for the blocks before the last one the pushes of known symbols answer (R124). -/
theorem exists_of_pushes {s : State} {syms : List Sym}
    (hroom : capAllows s.cfg.capOut (3 * ((syms.length + 7) / 8 - 1)) = true) :
    ∃ t, execAll (.estart :: pushAll syms) s = .next t := by
  induction syms using List.reverseRecOn with
  | nil => exact ⟨_, rfl⟩
  | append_singleton syms y ih =>
    rw [List.length_append, List.length_singleton] at hroom
    obtain ⟨t, ht⟩ := ih (capAllows_mono (by omega) hroom)
    have hwhole : (symbolBits s.cfg syms).length % 3 = 0 := by
      rw [length_symbolBits, Nat.mul_mod_right]
    obtain ⟨u, hu⟩ := (holds_of_pushes ht).exists_push y hwhole
      (capAllows_mono (by rw [length_symbolBits]; omega) hroom)
    exact ⟨u, by rw [execAll_pushes_concat, ht, andThen_next_left, hu]⟩

/-- Settles O48: the count and the number of blocks of a session that holds `3n` bits. -/
theorem pushesCountAndFlushInEights : Obligations.PushesCountAndFlushInEights := by
  intro s syms hne hroom
  have hpos := List.length_pos_of_ne_nil hne
  obtain ⟨t, ht⟩ := exists_of_pushes hroom
  have hholds := holds_of_pushes ht
  have hcnt := hholds.cnt
  have hout := hholds.out_length
  rw [length_symbolBits] at hcnt hout
  exact ⟨t, ht, by omega, by omega, hholds.active⟩

/-- Settles O49: a session that holds the stream bits of its pushes holds each at its index. -/
theorem pushedBitsStandAtTheirStreamIndex : Obligations.PushedBitsStandAtTheirStreamIndex := by
  intro s t syms h
  have hholds := holds_of_pushes h
  have hcnt := hholds.cnt
  have hout := hholds.out_length
  rw [length_symbolBits] at hcnt hout
  exact ⟨by omega, fun i hi => hholds.getElem? (by rwa [length_symbolBits])⟩

/-- Settles O50: `EFIN` after the pushes commits the stream bits of their symbols. -/
theorem encoderSessionCommitsEncode : Obligations.EncoderSessionCommitsEncode := by
  intro s syms hroom
  obtain ⟨t, ht⟩ := exists_of_pushes (syms := syms) (capAllows_mono (by omega) hroom)
  have hblocks : 3 * blockCount (symbolBits s.cfg syms).length ≤ 3 * ((syms.length + 7) / 8) := by
    rw [length_symbolBits, blockCount_eq]
    omega
  rw [execAll_append, ht, andThen_next_left, execAll_singleton,
    (holds_of_pushes ht).exec_efin (capAllows_mono hblocks hroom)]
  rfl

/-- Settles O51: the unknown symbol enters failure from whatever the pushes left, and the ended
session refuses. -/
theorem encoderSessionFailsAtUnknownSymbol : Obligations.EncoderSessionFailsAtUnknownSymbol := by
  intro s syms i hroom
  obtain ⟨t, ht⟩ := exists_of_pushes (syms := syms) (capAllows_mono (by omega) hroom)
  have hholds := holds_of_pushes ht
  have hframe := hholds.frame
  have hfits : t.enc.cnt = 24#5 → outHasRoom t = true := by
    intro hfull
    have hcnt := hholds.cnt
    rw [cnt_eq_24_iff.1 hfull, length_symbolBits] at hcnt
    rw [outHasRoom_eq, hholds.cfg, hholds.out_length, length_symbolBits]
    exact capAllows_mono (by omega) hroom
  have hfail : execAll (.estart :: pushAll syms ++ [.epush 7]) s =
      .next { s with enc := ⟨0, 0, [], .failed, .unknownSymbol⟩ } := by
    rw [execAll_append, ht, andThen_next_left, execAll_singleton,
      exec_epush_unknown hholds.active hfits, hframe]
    rfl
  refine ⟨hfail, fun hi => ?_⟩
  obtain ⟨u, hu, hended⟩ : ∃ u, execAll (.estart :: pushAll syms ++ [.epush 7]) s = .next u ∧
      u.enc.est ≠ .active := ⟨_, hfail, nofun⟩
  rw [List.append_cons, execAll_append, hu, andThen_next_left, execAll_singleton]
  obtain ⟨sid, rfl⟩ | rfl := hi
  · exact exec_epush_of_ended sid hended
  · exact exec_efin_of_ended hended

end Sys2Proof.Machine

/-! ## Proofs: the digit string and the scan (42_decoder.md)

### The digits in terms of the input bytes (R143, R144) -/

namespace Sys2Proof.Machine

theorem byteAt_of_le {inp : List Byte} {k : Nat} (h : inp.length ≤ k) : byteAt inp k = 0 :=
  List.getD_eq_default _ _ h

/-- Settles O26: a digit is a bit of `M`, and `M` is below `2^(8L)`. -/
theorem digitsAreInputBits : Obligations.DigitsAreInputBits := by
  intro wMin inp
  refine ⟨length_digits wMin inp, max_le_max le_rfl ((bitlen_le_iff _ _).2 (le_lt inp)), ?_⟩
  intro i hi
  rw [getElem?_digits wMin inp i hi, testBit_le]
  split
  · rfl
  · rw [byteAt_of_le (by omega)]
    exact congrArg some BitVec.getLsbD_zero

theorem le_eq_zero {inp : List Byte} (h : ∀ b ∈ inp, b = 0) : le inp = 0 := by
  induction inp with
  | nil => rfl
  | cons b inp ih =>
    obtain ⟨rfl, hrest⟩ := List.forall_mem_cons.1 h
    rw [le, ih hrest]
    rfl

/-- `bitlen` from the highest bit that is 1 (R12). -/
theorem bitlen_eq_succ {m n : Nat} (htop : m.testBit n = true)
    (habove : ∀ i, n < i → m.testBit i = false) : bitlen m = n + 1 :=
  le_antisymm ((bitlen_le_iff m (n + 1)).2 (Nat.lt_pow_two_of_testBit m habove))
    (lt_bitlen_of_testBit htop)

/-- Settles O27: the highest 1 bit of `M` stands in the last byte that is not 0. -/
theorem bitlenIsThatOfLastNonzeroByte : Obligations.BitlenIsThatOfLastNonzeroByte := by
  intro inp
  constructor
  · intro hzero
    rw [le_eq_zero hzero]
    rfl
  · intro k h _ hlater hh hbit hhigher
    refine bitlen_eq_succ ?_ fun i hi => ?_
    · rwa [testBit_le, show (8 * k + h) / 8 = k by omega, show (8 * k + h) % 8 = h by omega]
    · rw [testBit_le]
      by_cases hk : i / 8 = k
      · rw [hk]
        exact hhigher _ (by omega)
      · rw [hlater _ (by omega)]
        exact BitVec.getLsbD_zero

/-! ### The scan a block at a time (R75, R145, R155) -/

/-- Bit i of a field read from the input is bit `i mod 8` of the byte `i div 8` above its
address. -/
theorem testBit_memRead (inp : List Byte) (addr n i : Nat) (h : i < 8 * n) :
    (memRead inp addr n).testBit i = (byteAt inp (addr + i / 8)).getLsbD (i % 8) := by
  induction n generalizing addr i with
  | zero => cases h
  | succ n ih =>
    rw [memRead, Nat.add_comm, show 256 = 2 ^ 8 from rfl,
      Nat.testBit_two_pow_mul_add _ (byteAt inp addr).isLt]
    split
    · next hlow =>
      rw [Nat.div_eq_of_lt hlow, Nat.mod_eq_of_lt hlow]
      rfl
    · next hhigh =>
      rw [ih (addr + 1) (i - 8) (by omega), show addr + 1 + (i - 8) / 8 = addr + i / 8 by omega,
        show (i - 8) % 8 = i % 8 by omega]

theorem blockGroup_eq (inp : List Byte) (g : Nat) :
    blockGroup inp g = BitVec.ofNat 3 (memRead inp (3 * (g / 8)) 3 / 2 ^ (3 * (g % 8))) := rfl

/-- Bit j of a block's field k is the bit of `M` at three times the group index, plus j (R145). -/
theorem getLsbD_blockGroup (inp : List Byte) (g j : Nat) (hj : j < 3) :
    (blockGroup inp g).getLsbD j = (le inp).testBit (3 * g + j) := by
  have hfield : j + 3 * (g % 8) < 8 * 3 := by omega
  rw [blockGroup_eq, BitVec.getLsbD_ofNat, decide_eq_true hj, Bool.true_and,
    Nat.testBit_div_two_pow, testBit_memRead _ _ _ _ hfield, testBit_le,
    show 3 * (g / 8) + (j + 3 * (g % 8)) / 8 = (3 * g + j) / 8 by omega,
    show (j + 3 * (g % 8)) % 8 = (3 * g + j) % 8 by omega]

/-- A group of the digit string is the bits of `M` at its index (R145). -/
theorem groupAt_digits {w : Nat → Nat} {inp : List Byte} {g : Nat}
    (h : 3 * g + 3 ≤ digitLen w inp) :
    groupAt (digits w inp) g = some (groupVec ((le inp).testBit (3 * g))
      ((le inp).testBit (3 * g + 1)) ((le inp).testBit (3 * g + 2))) := by
  rw [groupAt, length_digits, if_pos h, getD_digits, getD_digits, getD_digits]

/-- A group of the digit string that exists is its block's field (R155). -/
theorem groupAt_digits_eq_blockGroup {w : Nat → Nat} {inp : List Byte} {g : Nat}
    (h : 3 * g + 3 ≤ digitLen w inp) : groupAt (digits w inp) g = some (blockGroup inp g) := by
  rw [groupAt_digits h, ← groupVec_codeBits (blockGroup inp g),
    getLsbD_blockGroup inp g 0 (by omega), getLsbD_blockGroup inp g 1 (by omega),
    getLsbD_blockGroup inp g 2 (by omega)]
  rfl

/-- Where one or two digits are left the scan fails (R152). -/
theorem scan_of_partial_group (t : CodeTable) (g : Nat) (dout : List Sid) {ds : List Bool}
    (hpos : 0 < ds.length) (hlt : ds.length < 3) : scan t g dout ds = ⟨g, dout, .invalidCode⟩ := by
  match ds with
  | [] => cases hpos
  | [_] | [_, _] => rw [scan]
  | _ :: _ :: _ :: _ => simp only [List.length_cons] at hlt; omega

/-- The digits at a group that exists, and those after it. -/
theorem drop_eq_of_groupAt {ds : List Bool} {g : Nat} {p : Sym3} (h : groupAt ds g = some p) :
    ∃ c0 c1 c2, ds.drop (3 * g) = c0 :: c1 :: c2 :: ds.drop (3 * (g + 1)) ∧
      groupVec c0 c1 c2 = p := by
  rw [← Nat.add_zero g, ← groupAt_drop] at h
  obtain ⟨c0, c1, c2, rest, hds, hp⟩ := groupAt_zero_eq_some.1 h
  have hrest : ds.drop (3 * (g + 1)) = rest := by
    rw [Nat.mul_succ, ← List.drop_drop, hds]
    rfl
  exact ⟨c0, c1, c2, by rw [hrest, hds], hp⟩

/-- From every group on the two scans agree, where the block scan may still take as many groups as
there are. -/
theorem scanBlocks_eq_scan (t : CodeTable) (w : Nat → Nat) (inp : List Byte) (n g : Nat)
    (dout : List Sid) (hfuel : digitLen w inp < 3 * (g + n)) :
    scanBlocks t inp (digitLen w inp) n g dout = scan t g dout ((digits w inp).drop (3 * g)) := by
  have hleft : ((digits w inp).drop (3 * g)).length = digitLen w inp - 3 * g := by
    rw [List.length_drop, length_digits]
  induction n generalizing g dout with
  | zero => rw [List.eq_nil_of_length_eq_zero (hleft.trans (by omega)), scan, scanBlocks]
  | succ n ih =>
    rw [scanBlocks]
    split
    · rw [List.eq_nil_of_length_eq_zero (hleft.trans (by omega)), scan]
    · split
      · rw [scan_of_partial_group t g dout (by omega) (by omega)]
      · have hgroup : groupAt (digits w inp) g = some (blockGroup inp g) :=
          groupAt_digits_eq_blockGroup (by omega)
        obtain ⟨c0, c1, c2, hds, hp⟩ := drop_eq_of_groupAt hgroup
        rw [hds, scan_group, hp]
        cases groupAction (t.inv (blockGroup inp g)) with
        | emit sid =>
          exact ih (g + 1) _ (by omega) (by rw [List.length_drop, length_digits])
        | stop e => rfl

/-- Settles O28: the two scans from group 0. -/
theorem blockwiseScanEqualsScan : Obligations.BlockwiseScanEqualsScan :=
  fun t wMin inp => scanBlocks_eq_scan t wMin inp _ 0 [] (by omega)

/-! ### The end at a terminator (R149) -/

/-- Settles O22: the terminator's group stops the scan with success. -/
theorem drunStopsAtFirstStreamEnd : Obligations.DrunStopsAtFirstStreamEnd := by
  intro s syms hload hwf hterm hgroups hend
  refine exec_drun_of_stop (how := .success) hload hwf hterm hgroups hend ?_
  rw [inv_codeOf hwf]
  rfl

/-- A group is in the digits up to its end. -/
theorem groupAt_take (ds : List Bool) (f : Nat) :
    groupAt (ds.take (3 * f + 3)) f = groupAt ds f := by
  have hexists : 3 * f + 3 ≤ (ds.take (3 * f + 3)).length ↔ 3 * f + 3 ≤ ds.length := by
    rw [List.length_take]
    omega
  have hdigit : ∀ j, j < 3 * f + 3 → (ds.take (3 * f + 3)).getD j false = ds.getD j false :=
    fun j hj => by rw [List.getD, List.getElem?_take_of_lt hj, List.getD]
  simp only [groupAt, hexists, hdigit (3 * f) (by omega), hdigit (3 * f + 1) (by omega),
    hdigit (3 * f + 2) (by omega)]

/-- Where group f stops a scan, at the latest, no digit after it is read (R149). -/
theorem scan_take {t : CodeTable} {f : Nat} {p : Sym3} {e : ScanEnd} {ds : List Bool}
    (hgroup : groupAt ds f = some p) (hstop : groupAction (t.inv p) = .stop e) (g : Nat)
    (dout : List Sid) : scan t g dout (ds.take (3 * f + 3)) = scan t g dout ds := by
  induction f generalizing ds g dout with
  | zero =>
    obtain ⟨c0, c1, c2, rest, rfl, rfl⟩ := groupAt_zero_eq_some.1 hgroup
    rw [List.take_succ_cons, List.take_succ_cons, List.take_succ_cons, scan_group, scan_group,
      hstop]
  | succ f ih =>
    match ds with
    | [] | [_] | [_, _] => simp [groupAt] at hgroup
    | c0 :: c1 :: c2 :: rest =>
      rw [groupAt_succ] at hgroup
      rw [Nat.mul_succ, List.take_succ_cons, List.take_succ_cons, List.take_succ_cons, scan_group,
        scan_group]
      cases groupAction (t.inv (groupVec c0 c1 c2)) with
      | emit sid => exact ih hgroup _ _
      | stop e => rfl

/-- Settles O23: both scans are the scan of the digits that the two strings share. -/
theorem drunResultIgnoresLaterDigits : Obligations.DrunResultIgnoresLaterDigits := by
  intro s u f hs hu hcode hwf hend htake
  have hstop : groupAction (s.cfg.code.inv (s.cfg.code.codeOf .streamEnd)) = .stop .success := by
    rw [inv_codeOf hwf]
    rfl
  have hend' : groupAt (digits u.cfg.wMin u.dec.inp) f = some (s.cfg.code.codeOf .streamEnd) := by
    rw [← groupAt_take, ← htake, groupAt_take, hend]
  have hscan : scan u.cfg.code 0 [] (digits u.cfg.wMin u.dec.inp) =
      scan s.cfg.code 0 [] (digits s.cfg.wMin s.dec.inp) := by
    rw [← hcode, ← scan_take hend hstop, ← scan_take hend' hstop, htake]
  rcases hr : scan s.cfg.code 0 [] (digits s.cfg.wMin s.dec.inp) with ⟨g, dout, how⟩
  refine ⟨_, _, if how = .success then [dout] else [], exec_drun_of_scan hs hr,
    exec_drun_of_scan hu (hscan.trans hr), ?_⟩
  cases how with
  | success => exact ⟨rfl, rfl, rfl, rfl, rfl⟩
  | invalidCode | endOfDigits =>
    exact ⟨rfl, rfl, rfl, (List.append_nil _).symm, (List.append_nil _).symm⟩

/-! ### Whole decoder sessions (R159) -/

/-- The bytes of a session, loaded one by one while `IN` has room for them (R141). -/
theorem execAll_dbytes {bytes : List Byte} {s : State} (hload : s.dec.dst = .loading)
    (hroom : capAllows s.cfg.capIn (s.dec.inp.length + bytes.length) = true) :
    execAll (bytes.map .dbyte) s =
      .next { s with dec := { s.dec with inp := s.dec.inp ++ bytes } } := by
  induction bytes generalizing s with
  | nil => rw [List.append_nil]; rfl
  | cons b bytes ih =>
    rw [List.length_cons] at hroom
    have hone : inpHasRoom s = true := capAllows_mono (by omega) hroom
    have hrest : capAllows (loadByte b s).cfg.capIn
        ((loadByte b s).dec.inp.length + bytes.length) = true :=
      capAllows_mono (by simp; omega) hroom
    rw [List.map_cons, execAll_cons, exec_dbyte_eq_next.2 ⟨hload, hone, rfl⟩, andThen_next_left,
      ih (s := loadByte b s) hload hrest, loadByte_dec, List.append_assoc]
    rfl

/-- A session is `DRUN` in the state with its bytes loaded. -/
theorem execAll_ddecode {bytes : List Byte} {s : State}
    (hroom : capAllows s.cfg.capIn bytes.length = true) :
    execAll (ddecode bytes) s =
      exec .drun { s with dec := ⟨bytes, [], 0, .loading, .noError⟩ } := by
  have hbytes := execAll_dbytes (s := openDec s) (bytes := bytes) rfl (by simpa using hroom)
  rw [ddecode, dload, List.singleton_append, List.cons_append, execAll_cons, exec_dstart,
    andThen_next_left, execAll_append, hbytes, andThen_next_left, execAll_singleton]
  rfl

/-- Settles O25: `DRUN` scans the digits of the loaded bytes, which read `W_MIN` at their number. -/
theorem decoderSessionComputesDecode : Obligations.DecoderSessionComputesDecode := by
  intro s bytes wMin hroom hwidth
  obtain ⟨new, hdout, hgrp, -⟩ := scan_emits s.cfg.code (digits wMin bytes) 0 []
  have hlen : (decodeBytes s.cfg.code wMin bytes).g =
      (decodeBytes s.cfg.code wMin bytes).dout.length := by
    rw [decodeBytes, hgrp, hdout, List.nil_append, Nat.zero_add]
  rcases hr : decodeBytes s.cfg.code wMin bytes with ⟨g, dout, how⟩
  rw [hr] at hlen
  have hscan : scan s.cfg.code 0 [] (digits s.cfg.wMin bytes) = ⟨g, dout, how⟩ := by
    rw [digits_congr hwidth, ← hr, decodeBytes]
  refine ⟨_, (execAll_ddecode hroom).trans (exec_drun_of_scan rfl hscan), ?_⟩
  cases how with
  | success => exact ⟨rfl, rfl, rfl, rfl, rfl, rfl, rfl, hlen, rfl, rfl, rfl⟩
  | invalidCode => exact ⟨rfl, rfl, rfl, rfl, rfl, rfl, rfl, hlen, rfl, rfl, rfl⟩
  | endOfDigits => exact ⟨rfl, rfl, rfl, rfl, rfl, rfl, rfl, hlen, rfl, rfl, rfl⟩

/-! ### The groups as instructions (R147, R153) -/

/-- Settles O29: the group of each symbol and of the unused pattern, by its action. -/
theorem groupCodesActOnDecoder : Obligations.GroupCodesActOnDecoder :=
  fun s => ⟨exec_instrOfGroup (some .ink0) s, exec_instrOfGroup (some .ink1) s,
    exec_instrOfGroup (some .ink2) s, exec_instrOfGroup (some .ink3) s,
    exec_instrOfGroup (some .ink4) s, exec_instrOfGroup (some .lineEnd) s,
    exec_instrOfGroup (some .streamEnd) s, exec_instrOfGroup none s⟩

theorem exec_group_of_ne {y : Sym} (h : y ≠ .streamEnd) (s : State) :
    exec (instrOfGroup (some y)) s = .next (emitSid (sidOf y) s) := by
  rw [exec_instrOfGroup, scanGroup, groupAction_of_ne h]

/-- The instructions of groups of symbols other than the terminator emit their sids one by one. -/
theorem execAll_groups {group : Nat → Option Sym} {new : List Sid} (s : State)
    (hgroups : ∀ k, k < new.length → ∃ y, y ≠ Sym.streamEnd ∧ group k = some y ∧
      new[k]? = some (sidOf y)) {n : Nat} (hn : n ≤ new.length) :
    execAll ((List.range n).map fun k => instrOfGroup (group k))
        { s with dec := { s.dec with dout := [], dgrp := 0 } } =
      .next { s with dec := { s.dec with dout := new.take n, dgrp := n } } := by
  induction n with
  | zero => rfl
  | succ n ih =>
    obtain ⟨y, hne, hgroup, hsid⟩ := hgroups n hn
    rw [List.range_succ, List.map_append, execAll_append, ih (by omega), andThen_next_left,
      List.map_singleton, hgroup, execAll_singleton, exec_group_of_ne hne, List.take_add_one, hsid]
    rfl

/-- Settles O30: the groups before the last emit, and the last one is the scan's stop. -/
theorem drunIsItsGroupsOneByOne : Obligations.DrunIsItsGroupsOneByOne := by
  intro s t h hlen
  obtain ⟨hload, -⟩ := exec_drun_eq_next.1 h
  obtain ⟨dout, how, hscan, hbefore, hstop⟩ :=
    scan_spec s.cfg.code (digits s.cfg.wMin s.dec.inp) 0 []
  rw [Nat.zero_add, List.nil_append] at hscan
  rw [exec_drun_of_scan hload hscan, Host.Outcome.next.injEq] at h
  have hgrp : t.dec.dgrp = dout.length := by rw [← h, endScan_frame]
  rw [hgrp] at hlen ⊢
  rw [length_digits] at hstop
  have haction : groupAction ((groupAt (digits s.cfg.wMin s.dec.inp) dout.length).bind
      s.cfg.code.inv) = .stop how := by
    obtain ⟨hend, -⟩ | ⟨-, hshort, -⟩ | ⟨⟨p, hp, hnone⟩, rfl⟩ | ⟨hterm, rfl⟩ := hstop
    · omega
    · omega
    · rw [hp, Option.bind_some, hnone]
      rfl
    · rw [hterm]
      rfl
  rw [List.range_succ, List.map_append, execAll_append, execAll_groups s hbefore le_rfl,
    andThen_next_left, List.map_singleton, execAll_singleton, exec_instrOfGroup, scanGroup,
    haction, List.take_length, ← h]

end Sys2Proof.Machine

/-! ## Proofs: the round trip (R157, R14, R154)

### The groups of an artifact -/

namespace Sys2Proof.Machine

/-- Bit j of symbol k's code stands at index `3k + j` of the stream (R110). -/
theorem getD_symbolBits {c : Config} {syms : List Sym} {k j : Nat} {y : Sym}
    (hy : syms[k]? = some y) (hj : j < 3) :
    (symbolBits c syms).getD (3 * k + j) false = (c.code.codeOf y).getLsbD j := by
  induction syms generalizing k with
  | nil => cases hy
  | cons z syms ih =>
    rw [symbolBits, List.flatMap_cons, ← symbolBits]
    cases k with
    | zero =>
      cases hy
      rw [Nat.mul_zero, Nat.zero_add, List.getD_append _ _ _ _ hj, symBitsOf, getD_codeBits]
    | succ k =>
      have hskip : (symBitsOf c z).length ≤ 3 * (k + 1) + j := by rw [length_symBitsOf]; omega
      rw [List.getD_append_right _ _ _ _ hskip, length_symBitsOf, ← ih hy]
      congr 1
      omega

theorem lt_length_of_getElem? {α : Type} {l : List α} {k : Nat} {y : α} (h : l[k]? = some y) :
    k < l.length :=
  (List.getElem?_eq_some_iff.1 h).1

/-- Bit j of symbol k's code is bit `3k + j` of the number the decoder reads (R129). -/
theorem testBit_artifact {c : Config} {syms : List Sym} {k j : Nat} {y : Sym}
    (hy : syms[k]? = some y) (hj : j < 3) :
    (le (encodeArtifact c syms)).testBit (3 * k + j) = (c.code.codeOf y).getLsbD j := by
  have hk := lt_length_of_getElem? hy
  have hstream : 3 * k + j < (symbolBits c syms).length := by rw [length_symbolBits]; omega
  rw [testBit_le_encodeArtifact, List.getD, getElem?_paddedBits_of_lt hstream, ← List.getD,
    getD_symbolBits hy hj]

/-- Group k of an artifact's digits is the code of symbol k, where the digits reach it. -/
theorem groupAt_artifact {c : Config} {w : Nat → Nat} {syms : List Sym} {k : Nat} {y : Sym}
    (hy : syms[k]? = some y) (hlen : 3 * k + 3 ≤ digitLen w (encodeArtifact c syms)) :
    groupAt (digits w (encodeArtifact c syms)) k = some (c.code.codeOf y) := by
  have hfirst : (le (encodeArtifact c syms)).testBit (3 * k) = (c.code.codeOf y).getLsbD 0 :=
    testBit_artifact hy (j := 0) (by omega)
  rw [groupAt_digits hlen, hfirst, testBit_artifact hy (by omega), testBit_artifact hy (by omega),
    groupVec_codeBits]

theorem codeTable_wf_of_wf {c : Config} (h : c.wf = true) : c.code.wf = true :=
  (Bool.and_eq_true_iff.1 h).1

section

variable {before after : List Sym}

theorem getElem?_terminator :
    (before ++ Sym.streamEnd :: after)[before.length]? = some .streamEnd := by
  rw [List.getElem?_append_right le_rfl, Nat.sub_self]
  rfl

theorem getElem?_before {k : Nat} {y : Sym} (h : before[k]? = some y) :
    (before ++ Sym.streamEnd :: after)[k]? = some y := by
  rw [List.getElem?_append_left (lt_length_of_getElem? h), h]

end

/-- Settles O54: the groups of the artifact are the symbols' codes, up to the terminator's. -/
theorem roundTripReturnsSymbols : Obligations.RoundTripReturnsSymbols := by
  intro s before after hload hwf hterm hinp hlen
  refine drunStopsAtFirstStreamEnd s before hload (codeTable_wf_of_wf hwf) hterm ?_ ?_
  · intro k y hy
    have hk := lt_length_of_getElem? hy
    rw [hinp] at hlen ⊢
    exact groupAt_artifact (getElem?_before hy) (by omega)
  · rw [hinp] at hlen ⊢
    exact groupAt_artifact getElem?_terminator hlen

/-- A decode session of an artifact whose digits reach the first terminator gives back the symbols
before it, from every state with room for the bytes. -/
theorem execAll_ddecode_artifact {s : State} {before after : List Sym} (hwf : s.cfg.wf = true)
    (hterm : Sym.streamEnd ∉ before)
    (hroom : capAllows s.cfg.capIn
      (encodeArtifact s.cfg (before ++ .streamEnd :: after)).length = true)
    (hlen : 3 * before.length + 3 ≤
      digitLen s.cfg.wMin (encodeArtifact s.cfg (before ++ .streamEnd :: after))) :
    execAll (ddecode (encodeArtifact s.cfg (before ++ .streamEnd :: after))) s = .next { s with
      dlog := s.dlog ++ [before.map sidOf],
      dec := ⟨[], before.map sidOf, before.length, .done, .noError⟩ } :=
  (execAll_ddecode hroom).trans (roundTripReturnsSymbols
    { s with dec := ⟨encodeArtifact s.cfg (before ++ .streamEnd :: after), [], 0, .loading,
      .noError⟩ } before after rfl hwf hterm rfl hlen)

/-- Settles O55: the groups that exist are codes of symbols before the terminator, and the digits
end at or inside the next one. -/
theorem roundTripNeverReturnsWrongSymbols : Obligations.RoundTripNeverReturnsWrongSymbols := by
  intro s before after hload hwf hterm hinp hlen
  have htake : (before.take (digitLen s.cfg.wMin s.dec.inp / 3)).length =
      digitLen s.cfg.wMin s.dec.inp / 3 := by
    rw [List.length_take]
    omega
  have hgroups : ∀ k y, (before.take (digitLen s.cfg.wMin s.dec.inp / 3))[k]? = some y →
      groupAt (digits s.cfg.wMin s.dec.inp) k = some (s.cfg.code.codeOf y) := by
    intro k y hy
    have hk := lt_length_of_getElem? hy
    rw [htake] at hk
    rw [List.getElem?_take_of_lt hk] at hy
    rw [hinp] at hk ⊢
    exact groupAt_artifact (getElem?_before hy) (by omega)
  obtain ⟨hboundary, hinside⟩ := drunWithoutTerminatorFails s _ hload (codeTable_wf_of_wf hwf)
    (fun hmem => hterm (List.mem_of_mem_take hmem)) hgroups
  rw [htake] at hboundary hinside
  split
  · exact hboundary (by omega)
  · exact hinside (by omega) (by omega)

/-- A 1 bit of the padded stream at or above the terminator's last bit is a digit (R157 (a)). -/
theorem digitLen_of_padded_bit {c : Config} {w : Nat → Nat} {syms : List Sym} {i : Nat}
    (h : (le (encodeArtifact c syms)).testBit i = true) :
    i + 1 ≤ digitLen w (encodeArtifact c syms) :=
  le_trans (lt_bitlen_of_testBit h) (le_max_right _ _)

/-- Settles O56: a 1 bit makes `bitlen` reach the terminator's end, or `W_MIN` reaches it. -/
theorem roundTripConditionSuffices : Obligations.RoundTripConditionSuffices := by
  intro c before after
  refine ⟨fun i hi hbit => ?_, fun hend => ?_, fun l hl hw => ?_⟩
  · have htrue : (le (encodeArtifact c (before ++ .streamEnd :: after))).testBit i = true := by
      rw [testBit_le_encodeArtifact, List.getD, hbit, Option.getD_some]
    exact le_trans (by omega) (digitLen_of_padded_bit htrue)
  · exact digitLen_of_padded_bit ((testBit_artifact getElem?_terminator (by omega)).trans hend)
  · have hbytes := artifactLengthIsWholeBlocks c (before ++ .streamEnd :: after)
    rw [List.length_append, List.length_cons] at hbytes
    refine le_trans ?_ (le_max_left _ _)
    rw [← hl] at hbytes ⊢
    omega

/-! ### Grids (R14, R86, R154) -/

theorem gridWf_iff {cols : Nat} {rows : List (List Sym)} :
    gridWf cols rows = true ↔ (1 ≤ cols ∧ rows ≠ []) ∧
      ∀ r ∈ rows, r.length = cols ∧ ∀ y ∈ r, isInk y = true := by
  simp [gridWf]

theorem length_gridBody {cols : Nat} {rows : List (List Sym)}
    (h : ∀ r ∈ rows, r.length = cols) : (gridBody rows).length = rows.length * (cols + 1) := by
  induction rows with
  | nil => rw [List.length_nil, Nat.zero_mul]; rfl
  | cons r rows ih =>
    obtain ⟨hr, hrows⟩ := List.forall_mem_cons.1 h
    rw [gridBody, List.flatMap_cons, List.length_append, ← gridBody, ih hrows, List.length_append,
      hr, List.length_singleton, List.length_cons]
    ring

/-- A grid's rows hold no terminator (R14). -/
theorem streamEnd_not_mem_gridBody {rows : List (List Sym)}
    (h : ∀ r ∈ rows, ∀ y ∈ r, isInk y = true) : Sym.streamEnd ∉ gridBody rows := by
  intro hmem
  obtain ⟨r, hr, hin⟩ := List.mem_flatMap.1 hmem
  obtain hin | hin := List.mem_append.1 hin
  · cases h r hr _ hin
  · cases List.mem_singleton.1 hin

/-- `EROW` pushes the row's symbols and a line end (R86). -/
theorem erow_map_sidOf (r : List Sym) : erow (r.map sidOf) = pushAll (r ++ [.lineEnd]) := by
  rw [erow, pushAll, List.map_map, List.map_append]
  rfl

/-- `EGRID` is a session that pushes the grid's stream (R14, R86). -/
theorem egrid_map_sidOf (rows : List (List Sym)) :
    egrid (rows.map (·.map sidOf)) = .estart :: pushAll (gridStream rows) ++ [.efin] := by
  have hrows : (rows.map (·.map sidOf)).flatMap erow = pushAll (gridBody rows) := by
    rw [List.flatMap_map, gridBody, pushAll, List.map_flatMap]
    exact List.flatMap_congr fun r _ => erow_map_sidOf r
  rw [egrid, hrows, gridStream, pushAll, pushAll, List.map_append]
  simp [sidOf]

/-- The text of a grid's sids is its rows, each followed by a line break (R154). -/
theorem text_gridBody (chars : TextChars) (rows : List (List Sym)) :
    text chars ((gridBody rows).map sidOf) = gridText chars rows := by
  rw [text, gridBody, gridText, List.flatMap_map, List.flatMap_assoc]
  refine List.flatMap_congr fun r _ => ?_
  rw [List.flatMap_append, List.flatMap_singleton]
  rfl

/-- Settles O57: the encode session, the decode session of its artifact, and the text of what comes
back. -/
theorem gridRoundTripThroughBothUnits : Obligations.GridRoundTripThroughBothUnits := by
  intro s cols rows chars hwf hgrid hend hout hin
  obtain ⟨-, hrows⟩ := gridWf_iff.1 hgrid
  have hbody : (gridBody rows).length = rows.length * (cols + 1) :=
    length_gridBody fun r hr => (hrows r hr).1
  have hstream : (gridStream rows).length + 7 = rows.length * (cols + 1) + 8 := by
    rw [gridStream, List.length_append, hbody, List.length_singleton]
  have hterm : Sym.streamEnd ∉ gridBody rows :=
    streamEnd_not_mem_gridBody fun r hr => (hrows r hr).2
  rw [← hstream] at hout hin
  obtain ⟨-, hreach, -⟩ := roundTripConditionSuffices s.cfg (gridBody rows) []
  have hencode := encoderSessionCommitsEncode s (gridStream rows) hout
  rw [← artifactLengthIsWholeBlocks s.cfg] at hin
  have hdecode := execAll_ddecode_artifact
    (s := { s with
      elog := s.elog ++ [encodeArtifact s.cfg (gridStream rows)],
      enc := ⟨0, 0, [], .done, .noError⟩ }) hwf hterm hin (hreach hend)
  rw [egrid_map_sidOf, execAll_append, hencode, andThen_next_left, ← hbody]
  exact ⟨_, hdecode, rfl, rfl, rfl, rfl, text_gridBody chars rows⟩

end Sys2Proof.Machine
